-- ==== Sys2Proof/Config.lean ====
section
/-! DEFINITION. The implementation parameters of R5, in one configuration record, and the value this hardware takes. -/

namespace Sys2Proof

/-- The four values of the flag register; one at a time, not independent bits (R18). -/
inductive Flag where
  | none
  | equal
  | lessThan
  | greaterThan
  deriving DecidableEq, Repr

/-- The parameters of R5 that no type depends on and that the spec lets a claim range over, for bytes of `cellBits`
bits: the opcode bytes (R45, D6) and the reset value of the flag register (R95, D5). -/
structure OpenParams (cellBits : Nat) where
  /-- `OPC_LDI` -/
  opcLdi : BitVec cellBits
  /-- `OPC_CMP` -/
  opcCmp : BitVec cellBits
  /-- `OPC_JMP` -/
  opcJmp : BitVec cellBits
  /-- `OPC_JEQ` -/
  opcJeq : BitVec cellBits
  /-- `OPC_JNE` -/
  opcJne : BitVec cellBits
  /-- `FL_RESET` -/
  flReset : Flag
  deriving DecidableEq, Repr

/-- The five opcode bytes, in the order of R45's table. -/
def OpenParams.opcodes {n : Nat} (p : OpenParams n) : List (BitVec n) :=
  [p.opcLdi, p.opcCmp, p.opcJmp, p.opcJeq, p.opcJne]

/-- R5's first constraint on the parameters: the five `OPC_*` values are pairwise distinct. -/
abbrev OpenParams.Distinct {n : Nat} (p : OpenParams n) : Prop := p.opcodes.Nodup

/-- The one configuration record: every parameter of R5's table. -/
structure Config where
  /-- `MEM_SIZE`, the number of memory cells. -/
  memSize : Nat
  /-- `CELL_BITS`, the width of a memory cell. -/
  cellBits : Nat
  /-- `NREGS`, the number of registers. -/
  nregs : Nat
  /-- `XLEN`, the width of a register. -/
  xlen : Nat
  /-- `PCW`, the width of the program counter. -/
  pcw : Nat
  /-- `FLW`, the width of the flag register. -/
  flw : Nat
  /-- The opcode bytes and `FL_RESET`. -/
  params : OpenParams cellBits
  deriving DecidableEq, Repr

/-- R5's constraints: distinct opcodes, and a program counter wide enough that no computation of it overflows (R17);
with memory of at least one cell (D25). -/
abbrev Config.Valid (c : Config) : Prop :=
  c.params.Distinct ∧ 2 ^ c.pcw > max (c.memSize + 2) (2 ^ c.xlen + 1) ∧ 1 ≤ c.memSize

/-- The values this hardware takes (R5).
PRESUMED (log 1, unsafe): the opcode bytes of CMP, JMP, JEQ and JNE are the spec's general-knowledge defaults.
UNVERIFIED (log 2, unsafe): `FL_RESET` is `EQUAL` as R24 states, the spec's own reading of an ambiguous source (C1). -/
abbrev Config.hardware : Config where
  memSize := 100
  cellBits := 8
  nregs := 8
  xlen := 8
  pcw := 9
  flw := 2
  params := {
    opcLdi := 0x82#8
    opcCmp := 0xA7#8
    opcJmp := 0x54#8
    opcJeq := 0x55#8
    opcJne := 0x56#8
    flReset := .equal }

/-- The parameters a claim about this hardware's sizes can range over. -/
abbrev Params := OpenParams Config.hardware.cellBits

/-- `MEM_SIZE`: addresses are `0..99` (R21). -/
abbrev memSize : Nat := Config.hardware.memSize

/-- `CELL_BITS` (R7). -/
abbrev cellBits : Nat := Config.hardware.cellBits

/-- `NREGS`: register indices are `0..7` (R10). -/
abbrev nregs : Nat := Config.hardware.nregs

/-- `XLEN` (R10). -/
abbrev xlen : Nat := Config.hardware.xlen

/-- `PCW` (R15). -/
abbrev pcw : Nat := Config.hardware.pcw

/-- `FLW` (R18). -/
abbrev flw : Nat := Config.hardware.flw

/-- `SP`: another name of register 7, with no behaviour of its own (R11). -/
abbrev spIndex : Nat := 7

end Sys2Proof
end

