-- ==== Sys2Proof/Word.lean ====
section
/-! DEFINITION. The plain value types, their widths taken from the configuration record (R5). -/

namespace Sys2Proof

/-- A memory cell, an opcode or an operand byte: `CELL_BITS` wide (R7, R21). -/
abbrev Byte := BitVec cellBits

/-- A register's value: `XLEN` wide, unsigned (R10). -/
abbrev Word := BitVec xlen

/-- The program counter's value: `PCW` wide, unsigned (R15). -/
abbrev Pc := BitVec pcw

/-- The code of a flag value: `FLW` wide (R18). -/
abbrev FlagCode := BitVec flw

end Sys2Proof
end

