-- ==== Sys2Proof/Machine/State.lean ====
section
/-! DEFINITION. The architectural state (R9 to R26), its reset, and the reasons a step can stop. -/

namespace Sys2Proof.Machine

/-- Which index space an out-of-bounds index belongs to: the `info_space` field of R22. -/
inductive Space where
  /-- A memory address (`MEM`). -/
  | mem
  /-- A register index (`REG`). -/
  | reg
  deriving DecidableEq, Repr

/-- The fatal conditions of the core with the information each records (R74 to R78). They are what the fault latch
holds, not the model's `Fault`: raising one is an ordinary next state (R84). -/
inductive Condition where
  /-- The fetched byte `op`, at address `addr`, has no dispatch table entry (R75). -/
  | unknownOpcode (op : Byte) (addr : Nat)
  /-- An access at an index outside its space (R76, R77). -/
  | outOfBounds (space : Space) (index : Nat)
  /-- The ALU was invoked with an operation other than compare (R78); no program causes it (R66). -/
  | unsupportedAluOperation
  deriving DecidableEq, Repr

/-- Memory as its cells of non-zero content, addresses strictly rising (DESIGN CHOICE log 7); `Memory.wf` in Machine/Ops.lean is
the form. -/
abbrev Memory := List Host.Cell

/-- What a cell that memory does not list reads as: 0, the reset contents of every cell (R24). -/
abbrev unlistedByte : Byte := 0#cellBits

/-- The complete architectural state (R9). -/
structure State where
  /-- `Mem`, addresses `0..99` (R21). -/
  mem : Memory
  /-- The register file `x`, `R0` to `R7` (R10, R11). -/
  x : Vector Word nregs
  /-- The program counter (R15). -/
  pc : Pc
  /-- The flag register `FL` (R18). -/
  fl : Flag
  /-- The fault latch: none, or the one recorded fatal condition (R22). -/
  fault : Option Condition
  deriving DecidableEq, Repr

/-- The state after reset for a given reset value of the flag register (R24, R94). -/
def State.resetWith (flReset : Flag) : State where
  mem := []
  x := Vector.replicate nregs 0#xlen
  pc := 0#pcw
  fl := flReset
  fault := none

/-- The machine right after reset, before an image is loaded (R24). -/
def State.reset : State := State.resetWith Config.hardware.params.flReset

/-- Why the machine has no next state. -/
inductive Fault where
  /-- Raised by `step` on a halted core, one whose latch holds the condition `c`: it takes no step until reset
  (R60, R86). Safe: the model stops where the hardware stays as it is (DESIGN CHOICE log 4). -/
  | halted (c : Condition)
  deriving DecidableEq, Repr

/-- Why an instruction has no meaning in this model. -/
inductive Refusal where
  /-- Raised by an arm of `exec` whose instruction has no meaning yet; no arm does. Safe: the model stops. -/
  | notModelled (mnemonic : String)
  deriving DecidableEq, Repr

end Sys2Proof.Machine
end

