-- ==== Sys2Proof/Machine/Ops.lean ====
section
/-! DEFINITION. The named operations over memory and registers (the primitives of R8), and raising a fatal condition
(R84), the one way an exception is taken. There is no return from one (R86). -/

namespace Sys2Proof.Machine

/-- The outcome of an instruction or of a step. -/
abbrev Result := Host.Outcome State Fault Refusal

/-- The byte a memory holds at an address; a cell that is not listed holds `unlistedByte`. -/
def Memory.read : Memory → Nat → Byte
  | [], _ => unlistedByte
  | (a, b) :: rest, k => if a = k then b else Memory.read rest k

/-- Memory with the byte at `k` replaced by `v`, kept in the canonical form. -/
def Memory.write : Memory → Nat → Byte → Memory
  | [], k, v => if v = unlistedByte then [] else [(k, v)]
  | (a, b) :: rest, k, v =>
    if k < a then
      if v = unlistedByte then (a, b) :: rest else (k, v) :: (a, b) :: rest
    else if k = a then
      if v = unlistedByte then rest else (k, v) :: rest
    else (a, b) :: Memory.write rest k v

/-- The canonical form: addresses strictly rising and below `MEM_SIZE`, no entry equal to what an unlisted cell
reads as. -/
abbrev Memory.wf (m : Memory) : Prop :=
  m.Pairwise (fun p q => p.1 < q.1) ∧ ∀ p ∈ m, p.1 < memSize ∧ p.2 ≠ unlistedByte

/-- `MemRead(a, 1)`, the checked memory read (R28): no wrapping and no masking. -/
def memRead (a : Nat) (s : State) : Except Condition Byte :=
  if a < memSize then .ok (s.mem.read a) else .error (.outOfBounds .mem a)

/-- The write of one existing memory cell. Only the load interface uses it (R8, R29, R34). -/
def setMem (a : Nat) (b : Byte) (s : State) : State := { s with mem := s.mem.write a b }

/-- `x[i]`, the checked register read (R8, R13): no masking. -/
def regRead (i : Nat) (s : State) : Except Condition Word :=
  if h : i < nregs then .ok s.x[i] else .error (.outOfBounds .reg i)

/-- The write of one existing register; no register is hardwired (R11). -/
def setReg (i : Nat) (v : Word) (h : i < nregs) (s : State) : State := { s with x := s.x.set i v h }

/-- `x[i] <- v`, the checked register write (R8, R13): no masking. -/
def regWrite (i : Nat) (v : Word) (s : State) : Except Condition State :=
  if h : i < nregs then .ok (setReg i v h s) else .error (.outOfBounds .reg i)

/-- `pc <- t` for a natural number `t` (R8). No `t` that a step can write reaches `2 ^ PCW` (R17; DESIGN CHOICE log 5). -/
def setPc (t : Nat) (s : State) : State := { s with pc := BitVec.ofNat pcw t }

/-- `FL <- f`, the whole flag register (R8, R19). -/
def setFlag (f : Flag) (s : State) : State := { s with fl := f }

/-- `raise C(info)` (R84): the latch records the condition, and nothing else changes (R85). -/
def raise (c : Condition) (s : State) : State := { s with fault := some c }

/-- How an instruction started in `s` ends: with all its writes, or with a raise that drops every one of them
(R8, R58, R85). -/
def finish (s : State) : Except Condition State → Result
  | .ok t => .next t
  | .error c => .next (raise c s)

end Sys2Proof.Machine
end

