-- ==== Sys2Proof/Machine/Flags.lean ====
section
/-! DEFINITION. The comparison ALU (R63 to R66) and the flag register's codes (R18). -/

namespace Sys2Proof.Machine

/-- The ALU's operation select (R66): one defined code, and every other one (DESIGN CHOICE log 9). -/
inductive AluOp where
  | compare
  /-- Any code other than `COMPARE`; no instruction drives it. -/
  | other
  deriving DecidableEq, Repr

/-- The comparison's value for the whole flag register (R63), unsigned (R64): "greater" is recorded as `NONE`. -/
def compareFlag (a b : Word) : Flag :=
  if a = b then .equal
  else if a.toNat < b.toNat then .lessThan
  else .none

/-- The ALU: compare, or the fatal condition for any other operation (R63, R66, R78). -/
def alu (op : AluOp) (a b : Word) : Except Condition Flag :=
  match op with
  | .compare => .ok (compareFlag a b)
  | .other => .error .unsupportedAluOperation

/-- The code of a flag value, seen only at the observation port (R18). -/
def flagCode : Flag → FlagCode
  | .none => 0b00#2
  | .equal => 0b01#2
  | .lessThan => 0b10#2
  | .greaterThan => 0b11#2

end Sys2Proof.Machine
end

