-- ==== Sys2Proof/Machine/Operands.lean ====
section
/-! DEFINITION. Operand assembly (R46, R47): LDI's immediate, CMP's fixed registers, the jumps' register. -/

namespace Sys2Proof.Machine

/-- `zext_XLEN(v)`: LDI's immediate byte as a register's value (R46). -/
def ldiValue (v : Byte) : Word := v.setWidth xlen

/-- CMP's operands: the registers 0 and 1, whatever the pad bytes hold (R47, R65). -/
def cmpOperands (s : State) : Except Condition (Word × Word) := do
  let a ← regRead 0 s
  let b ← regRead 1 s
  return (a, b)

/-- The operand of JMP, JEQ and JNE: the register whose index is the number `pc + 1` (R68). -/
def jumpOperand (s : State) : Except Condition Word := regRead (s.pc.toNat + 1) s

/-- `t + 2`: the new program counter of a taken jump whose operand is `t`, on natural numbers (R69). -/
def jumpTarget (t : Word) : Nat := t.toNat + 2

end Sys2Proof.Machine
end

