-- ==== Sys2Proof/Machine/Compare.lean ====
section
/-! DEFINITION. The compare family: CMP (R65). -/

namespace Sys2Proof.Machine

/-- CMP: `FL <- alu(COMPARE, x[0], x[1])`, then `pc <- pc + 3` (R65); no pad byte is read (UNVERIFIED log 11: the
spec's decision D8). -/
def execCmp (s : State) : Result :=
  finish s (do
    let (a, b) ← cmpOperands s
    let f ← alu .compare a b
    return setPc (s.pc.toNat + 3) (setFlag f s))

end Sys2Proof.Machine
end

