-- ==== Sys2Proof/Machine/Jump.lean ====
section
/-! DEFINITION. The control transfer family: JMP, JEQ, JNE (R68 to R73). -/

namespace Sys2Proof.Machine

/-- A jump taken when `taken` holds, with `pc + 2` otherwise; the operand is read on both paths (R68;
UNVERIFIED log 11: the spec's decision D9). -/
def jumpIf (taken : Bool) (s : State) : Result :=
  finish s (do
    let t ← jumpOperand s
    return setPc (if taken then jumpTarget t else s.pc.toNat + 2) s)

/-- JMP: `pc <- x[pc + 1] + 2` (R69). -/
def execJmp (s : State) : Result := jumpIf true s

/-- JEQ: `pc <- x[pc + 1] + 2` if `FL = EQUAL` at entry, else `pc + 2` (R70). -/
def execJeq (s : State) : Result := jumpIf (s.fl == .equal) s

/-- JNE: `pc <- x[pc + 1] + 2` if `FL = NONE` at entry, else `pc + 2` (R71). -/
def execJne (s : State) : Result := jumpIf (s.fl == .none) s

end Sys2Proof.Machine
end

