-- ==== Sys2Proof/Machine/Load.lean ====
section
/-! DEFINITION. The load family: LDI (R61). -/

namespace Sys2Proof.Machine

/-- LDI: `x[r] <- zext_XLEN(v)`, then `pc <- pc + 3`; raises `OutOfBounds(REG, r)` for `r >= 8` (R61). Its two
operand bytes have been read, and their addresses checked, by the fetch (Machine/Fetch.lean; DESIGN CHOICE log 3). -/
def execLdi (r : Nat) (v : Byte) (s : State) : Result :=
  finish s (do
    let t ← regWrite r (ldiValue v) s
    return setPc (s.pc.toNat + 3) t)

end Sys2Proof.Machine
end

