-- ==== Sys2Proof/Syntax.lean ====
section
/-! DEFINITION. The instructions: one constructor per row of the opcode table. -/

namespace Sys2Proof

/-- The five instructions (R45). Only LDI has operands in its bytes (R46); the pad bytes of the others are never
read and are no part of the instruction (R47). -/
inductive Instr where
  /-- LDI, load immediate (R61): the register index `r`, a number that need not be below 8 (R13), and the immediate
  byte `v`. -/
  | ldi (r : Nat) (v : Byte)
  /-- CMP, compare `x[0]` with `x[1]` (R65). -/
  | cmp
  /-- JMP, unconditional jump (R69). -/
  | jmp
  /-- JEQ, jump if `FL = EQUAL` (R70). -/
  | jeq
  /-- JNE, jump if `FL = NONE` (R71). -/
  | jne
  deriving DecidableEq, Repr

/-- The length of an instruction in bytes (R42). -/
def Instr.length : Instr → Nat
  | .ldi _ _ => 3
  | .cmp => 3
  | .jmp => 2
  | .jeq => 2
  | .jne => 2

/-- The opcode byte that selects an instruction (R45). -/
def Instr.opcode (c : Params) : Instr → Byte
  | .ldi _ _ => c.opcLdi
  | .cmp => c.opcCmp
  | .jmp => c.opcJmp
  | .jeq => c.opcJeq
  | .jne => c.opcJne

end Sys2Proof
end

