-- ==== Sys2Proof/Machine/Dispatch.lean ====
section
/-! DEFINITION. The instruction dispatch multiplexer (R56): one arm per instruction. -/

namespace Sys2Proof.Machine

/-- The operation an instruction selects (R56). It does not look at the fault latch; `step` does (DESIGN CHOICE log 12). -/
def exec (i : Instr) (s : State) : Host.Outcome State Fault Refusal :=
  match i with
  | .ldi r v => Sys2Proof.Machine.execLdi r v s
  | .cmp => Sys2Proof.Machine.execCmp s
  | .jmp => Sys2Proof.Machine.execJmp s
  | .jeq => Sys2Proof.Machine.execJeq s
  | .jne => Sys2Proof.Machine.execJne s

end Sys2Proof.Machine
end

