-- ==== Sys2Proof/WellFormed.lean ====
section
/-! DEFINITION. Which instruction terms have an encoding. -/

namespace Sys2Proof

/-- An instruction has an encoding. The one check: LDI's register index is a whole byte, `0..255`, all 8 bits
significant (R43, R46); an index of `8..255` is well formed and raises when it runs (R13, R61). -/
def Instr.wf : Instr → Bool
  | .ldi r _ => decide (r < 256)
  | .cmp => true
  | .jmp => true
  | .jeq => true
  | .jne => true

end Sys2Proof
end

