-- ==== Sys2Proof/Decode.lean ====
section
/-! DEFINITION. The decoder (R42 to R49, R53), total on any bytes and rejecting by name, and after it the encoder. -/

namespace Sys2Proof

/-- The decoder of R53 over any way of reading the instruction's bytes: `read k` is the byte `k` places after the
opcode, `illegal op` is how an opcode byte with no table entry is rejected. Byte 1 and byte 2 are read for LDI only
and in that order (R46, R47, R61); the pad bytes of CMP and of the jumps are not read (R47). -/
def decodeFrom {ε : Type} (c : Params) (read : Nat → Except ε Byte) (illegal : Byte → ε) : Except ε Instr := do
  let op ← read 0
  if op = c.opcLdi then do
    let r ← read 1
    let v ← read 2
    return .ldi r.toNat v
  else if op = c.opcCmp then
    return .cmp
  else if op = c.opcJmp then
    return .jmp
  else if op = c.opcJeq then
    return .jeq
  else if op = c.opcJne then
    return .jne
  else
    throw (illegal op)

/-- Why a sequence of bytes is no instruction. -/
inductive DecodeError where
  /-- The opcode byte has no dispatch table entry (R48). -/
  | unknownOpcode (op : Byte)
  /-- The sequence ends before a byte the instruction reads: 0 the opcode, 1 and 2 LDI's operands (R46). -/
  | missingByte (offset : Nat)
  deriving DecidableEq, Repr

/-- Byte `k` of a sequence of bytes, or that it is missing. -/
def byteAt (bytes : List Byte) (k : Nat) : Except DecodeError Byte :=
  match bytes[k]? with
  | some b => .ok b
  | none => .error (.missingByte k)

/-- The instruction at the head of a sequence of bytes, under given opcode values. -/
def decodeWith (c : Params) (bytes : List Byte) : Except DecodeError Instr :=
  decodeFrom c (byteAt bytes) .unknownOpcode

/-- The instruction at the head of a sequence of bytes, for this hardware (R53). -/
def decode (bytes : List Byte) : Except DecodeError Instr :=
  decodeWith Config.hardware.params bytes

/-- Byte `k` of an instruction numbered as the opcode table numbers it: bit 0 is the least significant bit of the
first byte. -/
def tableByte (w k : Nat) : Byte := BitVec.ofNat cellBits (w >>> (8 * k))

/-- The bytes of a table word in address order, up to the longest instruction; the bits from `nbits` on are 0. -/
def tableBytes (nbits w : Nat) : List Byte :=
  (List.range 3).map (tableByte (w % 2 ^ nbits))

/-- The instruction the decoder reads from a word numbered as the opcode table numbers it. -/
def decodeTableWord (nbits w : Nat) : Option Instr :=
  match decode (tableBytes nbits w) with
  | .ok i => some i
  | .error _ => none

/-- The bytes of an instruction in address order (R42, R43), with the pad bytes `p1` and `p2` where its format has
them (R51: the given pad bytes are emitted). -/
def encodePadded (c : Params) (p1 p2 : Byte) : Instr → List Byte
  | .ldi r v => [c.opcLdi, BitVec.ofNat cellBits r, v]
  | .cmp => [c.opcCmp, p1, p2]
  | .jmp => [c.opcJmp, p1]
  | .jeq => [c.opcJeq, p1]
  | .jne => [c.opcJne, p1]

/-- The bytes of an instruction for this hardware; pad bytes default to 0 (R51, D21; DESIGN CHOICE log 13). -/
def encode (i : Instr) : List Byte := encodePadded Config.hardware.params 0 0 i

end Sys2Proof
end

