-- ==== Sys2Proof/Machine/Fetch.lean ====
section
/-! DEFINITION. The fetch of an instruction's bytes (R55) and their decoding (R53), with the conditions they raise. -/

namespace Sys2Proof.Machine

/-- Fetch and decode at `pc`: the opcode byte, then for LDI its two operand bytes, each a checked read (R28); a byte
with no table entry raises `UnknownOpcode(op, pc)` (R55, R56, R61, R75). The order is that of R82. -/
def fetch (c : Params) (s : State) : Except Condition Instr :=
  decodeFrom c (fun k => memRead (s.pc.toNat + k) s) (fun op => .unknownOpcode op s.pc.toNat)

/-- The bytes that stand in memory from `pc` on, as many of an instruction's three as exist. -/
def bytesAtPc (s : State) : List Byte :=
  ((List.range' s.pc.toNat 3).filter (· < memSize)).map s.mem.read

/-- Bytes stored at consecutive addresses from `a` on; what would fall outside memory is not stored. -/
def storeBytes : List Byte → Nat → State → State
  | [], _, s => s
  | b :: rest, a, s => storeBytes rest (a + 1) (if a < memSize then setMem a b s else s)

end Sys2Proof.Machine
end

