-- ==== Sys2Proof/Machine/Step.lean ====
section
/-! DEFINITION. The step (R54 to R59): fetch, dispatch and the selected operation, for a core that is not halted. -/

namespace Sys2Proof.Machine

/-- One step under given parameters. A halted core has none (R60, R86; DESIGN CHOICE log 4); a condition the fetch raises is the
whole effect of the step (R84). -/
def stepWith (c : Params) (s : State) : Host.Outcome State Fault Refusal :=
  match s.fault with
  | some cond => .fault (.halted cond)
  | none =>
    match fetch c s with
    | .error cond => .next (raise cond s)
    | .ok i => exec i s

/-- One step of this hardware (R59). -/
def step (s : State) : Host.Outcome State Fault Refusal := stepWith Config.hardware.params s

/-- The state with an instruction's bytes, given as the opcode table numbers them, placed at `pc`, from where `step`
fetches: the load of a program of one instruction (R34; DESIGN CHOICE log 8). -/
def State.withFetchWord (s : State) (nbits w : Nat) : State :=
  storeBytes (tableBytes nbits w) s.pc.toNat s

end Sys2Proof.Machine
end

