-- ==== Sys2Proof/Machine/Loader.lean ====
section
/-! DEFINITION. The load of an image (R34, R35, R96) and the plain form of the program text it comes from (R50). -/

namespace Sys2Proof.Machine

/-- Why nothing is loaded; raised outside the core and never recorded in its latch (R80). -/
inductive LoadError where
  /-- The image has more bytes than memory has cells (R35). -/
  | imageTooLong (bytes : Nat)
  /-- The line, counted from 0, has no byte that R50 gives it (`MalformedInstruction`, R80; DESIGN CHOICE log 14). -/
  | malformedInstruction (line : Nat)
  deriving DecidableEq, Repr

/-- The image's bytes written at consecutive addresses from `a` on (R34). -/
def placeImage : List Byte → Nat → State → State
  | [], _, s => s
  | b :: rest, a, s => placeImage rest (a + 1) (setMem a b s)

/-- The launch state of an image (R96): reset, then the image over the zeros; too long an image is refused (R35). -/
def launchWith (c : Params) (image : List Byte) : Except LoadError State :=
  if image.length ≤ memSize then .ok (placeImage image 0 (State.resetWith c.flReset))
  else .error (.imageTooLong image.length)

/-- The launch state of an image on this hardware (R96). -/
def launch (image : List Byte) : Except LoadError State := launchWith Config.hardware.params image

/-- The bit a binary digit stands for. -/
def digitBit : Char → Option Bool
  | '0' => some false
  | '1' => some true
  | _ => none

/-- The digit that stands for a bit. -/
def bitDigit (b : Bool) : Char := if b then '1' else '0'

/-- The value of a sequence of bits, the most significant first (R7). -/
def bitsValue (bits : List Bool) : Nat := bits.foldl (fun n b => 2 * n + b.toNat) 0

/-- A byte as the 8-digit binary literal of the program text, bit 7 first (R7, R50). -/
def literalOf (b : Byte) : List Char :=
  [7, 6, 5, 4, 3, 2, 1, 0].map (fun k => bitDigit (b.getLsbD k))

/-- White space inside a line of the program text. -/
def isBlank (ch : Char) : Bool := ch == ' ' || ch == '\t' || ch == '\r'

/-- What may stand after the literal: nothing, white space, or white space and a `#` comment (R50). -/
def isTrailer : List Char → Bool
  | [] => true
  | ch :: rest =>
    isBlank ch && (match rest.dropWhile isBlank with
      | [] => true
      | c :: _ => c == '#')

/-- The bytes one line of the program text contributes (R34, R50): none for a blank line, one for a literal, and
`none` for a line that R50 gives no byte (DESIGN CHOICE log 14). -/
def parseLine (line : List Char) : Option (List Byte) :=
  if line.all isBlank then some []
  else
    match (line.take 8).mapM digitBit with
    | some bits =>
      if bits.length = 8 ∧ isTrailer (line.drop 8) then some [BitVec.ofNat cellBits (bitsValue bits)] else none
    | none => none

/-- The image a program text stands for, lines in file order; `n` is the number of its first line (R50). -/
def parseProgram : List (List Char) → Nat → Except LoadError (List Byte)
  | [], _ => .ok []
  | line :: rest, n =>
    match parseLine line with
    | none => .error (.malformedInstruction n)
    | some bytes => do
      let more ← parseProgram rest (n + 1)
      return bytes ++ more

/-- The launch state of a program text (R34, R50, R96). -/
def loadText (lines : List (List Char)) : Except LoadError State := do
  let image ← parseProgram lines 0
  launch image

end Sys2Proof.Machine
end

