-- ==== Sys2Proof/Machine/Ports.lean ====
section
/-! DEFINITION. The core's external interface (R25): the `status` and `observe` ports, and the events `reset`, `load`
and `run` around the core's state. -/

namespace Sys2Proof.Machine

/-- The `cause` code of a fatal condition (R22, R74). -/
def causeCode : Condition → BitVec 2
  | .unknownOpcode _ _ => 1#2
  | .outOfBounds _ _ => 2#2
  | .unsupportedAluOperation => 3#2

/-- The `info_space` field of a fatal condition (R22). -/
def infoSpace : Condition → BitVec 1
  | .outOfBounds .reg _ => 1#1
  | .outOfBounds .mem _ => 0#1
  | .unknownOpcode _ _ => 0#1
  | .unsupportedAluOperation => 0#1

/-- The `info_index` field of a fatal condition (R22). Every index that arises fits its 9 bits (DESIGN CHOICE log 6). -/
def infoIndex : Condition → Pc
  | .unknownOpcode _ addr => BitVec.ofNat pcw addr
  | .outOfBounds _ index => BitVec.ofNat pcw index
  | .unsupportedAluOperation => 0#pcw

/-- The `info_opcode` field of a fatal condition (R22). -/
def infoOpcode : Condition → Byte
  | .unknownOpcode op _ => op
  | .outOfBounds _ _ => 0#cellBits
  | .unsupportedAluOperation => 0#cellBits

/-- What the `status` port shows: the fields of the fault latch (R22, R25). -/
structure Status where
  halted : Bool
  cause : BitVec 2
  infoSpace : BitVec 1
  infoIndex : Pc
  infoOpcode : Byte
  deriving DecidableEq, Repr

/-- The `status` port, valid at any time (R25). -/
def statusPort (s : State) : Status :=
  match s.fault with
  | none => { halted := false, cause := 0#2, infoSpace := 0#1, infoIndex := 0#pcw, infoOpcode := 0#cellBits }
  | some c =>
    { halted := true, cause := causeCode c, infoSpace := infoSpace c, infoIndex := infoIndex c,
      infoOpcode := infoOpcode c }

/-- What the `observe` port shows (R25). -/
structure Observation where
  x : Vector Word nregs
  pc : Pc
  fl : FlagCode
  /-- The bytes at addresses 0 to 99. -/
  mem : List Byte
  deriving DecidableEq, Repr

/-- The `observe` port, valid between steps and after halt (R25). -/
def observePort (s : State) : Observation where
  x := s.x
  pc := s.pc
  fl := flagCode s.fl
  mem := (List.range memSize).map s.mem.read

/-- Whether the host has started the core since the last reset (R25). It is the interface's own, no part of the
architectural state (R9; DESIGN CHOICE log 10). -/
inductive Phase where
  /-- After `reset` and before `run`: the host may load. -/
  | loading
  /-- After `run`: the core takes steps until it is halted. -/
  | running
  deriving DecidableEq, Repr

/-- The core together with its interface's phase. -/
structure System where
  phase : Phase
  core : State
  deriving DecidableEq, Repr

/-- What can happen at the interface (R25), and the core's own step (R54). -/
inductive Event where
  | reset
  | load (a : Nat) (b : Byte)
  | run
  | step
  deriving DecidableEq, Repr

/-- The system after an event, or `none` where the event is not permitted: `load` only before `run` and inside memory,
`run` once after a reset, a step only of a running core that is not halted (R25, R34, R54, R94; DESIGN CHOICE log 10). -/
def System.after (c : Params) (e : Event) (σ : System) : Option System :=
  match e with
  | .reset => some { phase := .loading, core := State.resetWith c.flReset }
  | .load a b =>
    match σ.phase with
    | .loading => if a < memSize then some { σ with core := setMem a b σ.core } else none
    | .running => none
  | .run =>
    match σ.phase with
    | .loading => some { σ with phase := .running }
    | .running => none
  | .step =>
    match σ.phase with
    | .loading => none
    | .running =>
      match stepWith c σ.core with
      | .next t => some { σ with core := t }
      | .fault _ => none
      | .refused _ => none

/-- The system after a sequence of events, or `none` where one of them is not permitted. -/
def System.afterAll (c : Params) : List Event → System → Option System
  | [], σ => some σ
  | e :: rest, σ =>
    match σ.after c e with
    | none => none
    | some σ' => System.afterAll c rest σ'

/-- The host's part of the boot sequence for an image from address `a` on: one `load` a byte (R96). -/
def loadEvents : List Byte → Nat → List Event
  | [], _ => []
  | b :: rest, a => .load a b :: loadEvents rest (a + 1)

end Sys2Proof.Machine
end

