-- ==== Sys2Proof/Safety.lean ====
section
/-! DEFINITION. The terms claims are stated in: what is reachable, when a run has ended, and the machine's invariant. -/

namespace Sys2Proof.Machine

/-- The core is halted: its latch holds a condition (R22). A halted run is not a failed run (R60). -/
abbrev State.halted (s : State) : Prop := s.fault ≠ none

/-- The states a run under given parameters passes through, from the launch state of any image (R96). -/
inductive Reachable (c : Params) : State → Prop where
  | launch {image : List Byte} {s : State} (h : launchWith c image = .ok s) : Reachable c s
  | step {s t : State} (hs : Reachable c s) (h : stepWith c s = .next t) : Reachable c t

/-- A program text for a sequence of bytes in the form R50 gives: blank lines, which contribute nothing, and lines of an
8-digit literal with nothing, white space or a comment after it, one byte each. -/
inductive TextOf : List (List Char) → List Byte → Prop where
  | done : TextOf [] []
  | blank {line : List Char} {lines : List (List Char)} {image : List Byte} (h : line.all isBlank)
      (rest : TextOf lines image) : TextOf (line :: lines) image
  | byte {b : Byte} {tail : List Char} {lines : List (List Char)} {image : List Byte} (h : isTrailer tail)
      (rest : TextOf lines image) : TextOf ((literalOf b ++ tail) :: lines) (b :: image)

/-- The record in the latch is one that `s` raises at its own `pc` (R75 to R78): the byte and its address for
UnknownOpcode, the ranges of R22 for OutOfBounds, never UnsupportedAluOperation. -/
def Recorded (c : Params) (s : State) : Condition → Prop
  | .unknownOpcode op addr =>
    addr = s.pc.toNat ∧ addr < memSize ∧ s.mem.read addr = op ∧ op ∉ c.opcodes
  | .outOfBounds .mem a => memSize ≤ a ∧ a ≤ 257
  | .outOfBounds .reg i => nregs ≤ i ∧ i ≤ 255
  | .unsupportedAluOperation => False

/-- The machine's invariant under given parameters. -/
structure Inv (c : Params) (s : State) : Prop where
  /-- Memory is in its canonical form and within the address space (R21). -/
  mem_wf : s.mem.wf
  /-- The program counter never exceeds 255 + 2 (R17). -/
  pc_le : s.pc.toNat ≤ 257
  /-- `GREATER_THAN` is never held (R20). -/
  fl_ne : s.fl ≠ .greaterThan
  /-- What the latch records is what the state raised (R22). -/
  recorded : ∀ cond, s.fault = some cond → Recorded c s cond

end Sys2Proof.Machine
end

