-- ==== Sys2Proof/Certificates/Slice0/Obligations.lean ====
section
/-! DEFINITION. The statements for the provers, from the spec's numbered rules. Step statements are made for every
value `c` of the open parameters (R5), so that they do not rest on the presumed opcode bytes (R45, log 1); `step` is
the step for `Config.hardware.params`. -/

open Sys2Proof Sys2Proof.Machine

/-! ## Parameters -/

/-- R5: the one configuration record holds the table's values, its widths are those of the state's types, and it meets
the constraints; under the constraints, whatever the values, no computation of the program counter reaches `2 ^ PCW`:
no sequential one from an opcode in memory, and no jump target. The opcode bytes of CMP, JMP, JEQ and JNE are presumed
(log 1). -/
def Obligations.ParametersMeetTheirConstraints : Prop :=
  (Config.hardware.memSize = 100 ∧ Config.hardware.cellBits = 8 ∧ Config.hardware.nregs = 8 ∧
    Config.hardware.xlen = 8 ∧ Config.hardware.pcw = 9 ∧ Config.hardware.flw = 2 ∧
    Config.hardware.params.opcLdi = 0x82#8 ∧ Config.hardware.params.opcCmp = 0xA7#8 ∧
    Config.hardware.params.opcJmp = 0x54#8 ∧ Config.hardware.params.opcJeq = 0x55#8 ∧
    Config.hardware.params.opcJne = 0x56#8 ∧ Config.hardware.params.flReset = .equal) ∧
  (∀ s : State, s.pc.toNat < 2 ^ Config.hardware.pcw ∧ s.x.size = Config.hardware.nregs ∧
    (∀ i v, regRead i s = .ok v → v.toNat < 2 ^ Config.hardware.xlen) ∧
    (∀ a b, memRead a s = .ok b → a < Config.hardware.memSize ∧ b.toNat < 2 ^ Config.hardware.cellBits) ∧
    (flagCode s.fl).toNat < 2 ^ Config.hardware.flw) ∧
  Config.hardware.Valid ∧
  ∀ c : Config, c.Valid →
    (∀ p, p < c.memSize → p + 3 < 2 ^ c.pcw) ∧ (∀ t : BitVec c.xlen, t.toNat + 2 < 2 ^ c.pcw)

/-! ## Reset, boot and the ports -/

/-- R94: the `reset` event restores every piece of state, whatever the state before. -/
def Obligations.ResetEventRestoresEveryStateElement : Prop :=
  ∀ σ : System, ∃ t : State,
    σ.after Config.hardware.params .reset = some { phase := .loading, core := t } ∧
    (∀ a, a < memSize → memRead a t = .ok 0#8) ∧
    (∀ i, i < nregs → regRead i t = .ok 0#8) ∧
    t.pc = 0#9 ∧ t.fl = .equal ∧ t.fault = none ∧
    statusPort t = { halted := false, cause := 0#2, infoSpace := 0#1, infoIndex := 0#9, infoOpcode := 0#8 } ∧
    t = State.reset

/-- R96: reset, the loads of an image and `run` reach the launch state, which holds the image, zeros after it, and
otherwise the reset values; an empty image is legal, and its first step fetches 0 and raises UnknownOpcode(0x00, 0)
where 0 is no opcode. -/
def Obligations.BootSequenceReachesTheLaunchState : Prop :=
  Config.hardware.params.flReset = .equal ∧ 0#8 ∉ Config.hardware.params.opcodes ∧
  ∀ (c : Params) (image : List Byte) (σ : System), image.length ≤ memSize →
    ∃ s : State,
      launchWith c image = .ok s ∧
      System.afterAll c (.reset :: (loadEvents image 0 ++ [.run])) σ = some { phase := .running, core := s } ∧
      (∀ (i : Nat) (h : i < image.length), memRead i s = .ok image[i]) ∧
      (∀ i, image.length ≤ i → i < memSize → memRead i s = .ok 0#8) ∧
      (∀ i, i < nregs → regRead i s = .ok 0#8) ∧
      s.pc = 0#9 ∧ s.fl = c.flReset ∧ s.fault = none ∧
      (image = [] → 0#8 ∉ c.opcodes → stepWith c s = .next (raise (.unknownOpcode 0#8 0) s))

/-- R35: an image longer than memory has no launch state. -/
def Obligations.ImageLongerThanMemoryIsRefused : Prop :=
  ∀ (c : Params) (image : List Byte), memSize < image.length → ∀ s, launchWith c image ≠ .ok s

/-- R25, R34: `load` writes one existing cell and nothing else, and only before `run`; `run` changes no state of the
core and cannot be given twice. The answer `none` for an event that is not permitted is the model's (log 10). -/
def Obligations.LoadWritesOneCellBeforeRunOnly : Prop :=
  ∀ (c : Params) (a : Nat) (b : Byte) (s : State), s.mem.wf →
    (a < memSize → ∃ t : State,
      System.after c (.load a b) { phase := .loading, core := s } = some { phase := .loading, core := t } ∧
      t.mem.wf ∧ memRead a t = .ok b ∧ (∀ k, k ≠ a → memRead k t = memRead k s) ∧
      t.x = s.x ∧ t.pc = s.pc ∧ t.fl = s.fl ∧ t.fault = s.fault) ∧
    (memSize ≤ a → System.after c (.load a b) { phase := .loading, core := s } = none) ∧
    System.after c (.load a b) { phase := .running, core := s } = none ∧
    System.after c .run { phase := .loading, core := s } = some { phase := .running, core := s } ∧
    System.after c .run { phase := .running, core := s } = none

/-- R50, S6: loading the text of a byte sequence gives the launch state of that sequence; blank lines, white space and
comments contribute nothing. What the loader refuses is the model's (log 14). -/
def Obligations.LoadingProgramTextLoadsItsBytes : Prop :=
  ∀ (lines : List (List Char)) (image : List Byte), TextOf lines image → loadText lines = launch image

/-- R22: the `status` port's fields for every content of the latch. That the fields are computed from one record is
the model's (log 6). -/
def Obligations.StatusPortShowsTheFaultLatch : Prop :=
  ∀ s : State,
    (s.fault = none → statusPort s =
      { halted := false, cause := 0#2, infoSpace := 0#1, infoIndex := 0#9, infoOpcode := 0#8 }) ∧
    (∀ op addr, s.fault = some (.unknownOpcode op addr) → addr < 512 →
      ∃ index : Pc, index.toNat = addr ∧ statusPort s =
        { halted := true, cause := 1#2, infoSpace := 0#1, infoIndex := index, infoOpcode := op }) ∧
    (∀ a, s.fault = some (.outOfBounds .mem a) → a < 512 →
      ∃ index : Pc, index.toNat = a ∧ statusPort s =
        { halted := true, cause := 2#2, infoSpace := 0#1, infoIndex := index, infoOpcode := 0#8 }) ∧
    (∀ i, s.fault = some (.outOfBounds .reg i) → i < 512 →
      ∃ index : Pc, index.toNat = i ∧ statusPort s =
        { halted := true, cause := 2#2, infoSpace := 1#1, infoIndex := index, infoOpcode := 0#8 }) ∧
    (s.fault = some .unsupportedAluOperation → statusPort s =
      { halted := true, cause := 3#2, infoSpace := 0#1, infoIndex := 0#9, infoOpcode := 0#8 })

/-- R18, R25: the `observe` port shows the registers, the program counter, the flag register in the codes of R18, and
the 100 cells of memory. -/
def Obligations.ObservePortShowsStateAndFlagCodes : Prop :=
  ∀ s : State,
    (observePort s).x = s.x ∧ (observePort s).pc = s.pc ∧
    ((observePort s).fl = 0b00#2 ↔ s.fl = .none) ∧ ((observePort s).fl = 0b01#2 ↔ s.fl = .equal) ∧
    ((observePort s).fl = 0b10#2 ↔ s.fl = .lessThan) ∧ ((observePort s).fl = 0b11#2 ↔ s.fl = .greaterThan) ∧
    ∀ (a : Nat) (b : Byte), (observePort s).mem[a]? = some b ↔ memRead a s = .ok b

/-! ## Memory -/

/-- Memories that read alike are equal data, by the canonical form, which is the model's (log 7). -/
def Obligations.MemoryWithEqualReadsIsEqual : Prop :=
  ∀ m n : Memory, m.wf → n.wf → (∀ a, m.read a = n.read a) → m = n

/-- R29: during a run memory is constant, after any number of steps. -/
def Obligations.MemoryIsConstantDuringARun : Prop :=
  ∀ (n : Nat) (s t : State), Host.Core.run Sys2Proof.core n s = .next t → ∀ a, memRead a t = memRead a s

/-! ## The ALU -/

/-- R63: the comparison's result for all pairs of register values, unsigned; it is never `GREATER_THAN`. -/
def Obligations.AluCompareGivesItsTable : Prop :=
  ∀ a b : Word,
    (alu .compare a b = .ok .equal ↔ a.toNat = b.toNat) ∧
    (alu .compare a b = .ok .lessThan ↔ a.toNat < b.toNat) ∧
    (alu .compare a b = .ok .none ↔ b.toNat < a.toNat) ∧
    alu .compare a b ≠ .ok .greaterThan

/-- R66, R78: any other ALU operation is the fatal condition, and no step records it. The second operation code is the
model's rendering (log 9); that it is unreachable is derived. -/
def Obligations.UnsupportedAluOperationIsNeverRaised : Prop :=
  (∀ a b : Word, alu .other a b = .error .unsupportedAluOperation) ∧
  ∀ (c : Params) (s t : State), stepWith c s = .next t → t.fault ≠ some .unsupportedAluOperation

/-! ## The instructions -/

/-- R61, R62 on LDI's own effect, its operand bytes read (log 3): for `r` of 0 to 7 it completes, writes `v` to
register `r`, moves 3 on, and changes nothing else. -/
def Obligations.LdiWritesItsRegister : Prop :=
  ∀ (r : Nat) (v : Byte) (s : State), r < nregs → s.pc.toNat < memSize →
    ∃ t : State, exec (.ldi r v) s = .next t ∧
      regRead r t = .ok v ∧ (∀ i, i ≠ r → regRead i t = regRead i s) ∧
      t.pc.toNat = s.pc.toNat + 3 ∧ t.fl = s.fl ∧ (∀ a, memRead a t = memRead a s) ∧ t.fault = s.fault

/-- R13, R77 on LDI's own effect, its operand bytes read (the model's division, log 3): for `r` of 8 or more LDI records
`OutOfBounds(REG, r)`; the index is not masked and nothing else changes. In a step, an LDI whose operand addresses are
not both inside memory (`pc` of 98 or 99) does not come here: the fetch raises `OutOfBounds(MEM, 100)` first (R61,
R82). -/
def Obligations.LdiRaisesOutsideTheRegisterFile : Prop :=
  ∀ (r : Nat) (v : Byte) (s : State), nregs ≤ r →
    ∃ t : State, exec (.ldi r v) s = .next t ∧ t.fault = some (.outOfBounds .reg r) ∧
      (∀ i, regRead i t = regRead i s) ∧ t.pc = s.pc ∧ t.fl = s.fl ∧ ∀ a, memRead a t = memRead a s

/-- R65: CMP, with any pad bytes or none, always completes, records the comparison of `x[0]` with `x[1]`, moves 3 on
and changes nothing else; in the last three cells it is the next fetch that raises. -/
def Obligations.CmpComparesRegisters0And1 : Prop :=
  (∀ (c : Params) (pads : List Byte), c.Distinct → decodeWith c (c.opcCmp :: pads) = .ok .cmp) ∧
  ∀ s : State, s.pc.toNat < memSize →
    ∃ (t : State) (a b : Word), exec .cmp s = .next t ∧
      regRead 0 s = .ok a ∧ regRead 1 s = .ok b ∧
      (a.toNat = b.toNat → t.fl = .equal) ∧ (a.toNat < b.toNat → t.fl = .lessThan) ∧
      (b.toNat < a.toNat → t.fl = .none) ∧
      t.pc.toNat = s.pc.toNat + 3 ∧ (∀ i, regRead i t = regRead i s) ∧
      (∀ k, memRead k t = memRead k s) ∧ t.fault = s.fault ∧
      (s.fault = none → 97 ≤ s.pc.toNat → ∀ c : Params,
        stepWith c t = .next (raise (.outOfBounds .mem (s.pc.toNat + 3)) t))

/-- R69: JMP reads `x[pc + 1]` and goes to its value plus 2, changing nothing else; from 7 on it raises
`OutOfBounds(REG, pc + 1)` and writes nothing; a target outside memory is found by the next fetch. -/
def Obligations.JmpGoesToItsRegisterPlus2 : Prop :=
  (∀ (c : Params) (pads : List Byte), c.Distinct → decodeWith c (c.opcJmp :: pads) = .ok .jmp) ∧
  ∀ s : State,
    (s.pc.toNat ≤ 6 → ∃ (v : Word) (t : State), regRead (s.pc.toNat + 1) s = .ok v ∧
      exec .jmp s = .next t ∧ t.pc.toNat = v.toNat + 2 ∧
      (∀ i, regRead i t = regRead i s) ∧ t.fl = s.fl ∧ (∀ a, memRead a t = memRead a s) ∧ t.fault = s.fault ∧
      (s.fault = none → 98 ≤ v.toNat → ∀ c : Params,
        stepWith c t = .next (raise (.outOfBounds .mem (v.toNat + 2)) t))) ∧
    (7 ≤ s.pc.toNat → exec .jmp s = .next (raise (.outOfBounds .reg (s.pc.toNat + 1)) s))

/-- R70: JEQ goes to `x[pc + 1]` plus 2 when `FL = EQUAL` and 2 on otherwise, changing nothing else; from 7 on it
raises on both paths. -/
def Obligations.JeqJumpsWhenEqual : Prop :=
  (∀ (c : Params) (pads : List Byte), c.Distinct → decodeWith c (c.opcJeq :: pads) = .ok .jeq) ∧
  ∀ s : State,
    (s.pc.toNat ≤ 6 → ∃ (v : Word) (t : State), regRead (s.pc.toNat + 1) s = .ok v ∧
      exec .jeq s = .next t ∧
      (s.fl = .equal → t.pc.toNat = v.toNat + 2) ∧ (s.fl ≠ .equal → t.pc.toNat = s.pc.toNat + 2) ∧
      (∀ i, regRead i t = regRead i s) ∧ t.fl = s.fl ∧ (∀ a, memRead a t = memRead a s) ∧ t.fault = s.fault) ∧
    (7 ≤ s.pc.toNat → exec .jeq s = .next (raise (.outOfBounds .reg (s.pc.toNat + 1)) s))

/-- R71: JNE goes to `x[pc + 1]` plus 2 when `FL = NONE`, not when it is merely different from `EQUAL`, and 2 on
otherwise, changing nothing else; from 7 on it raises on both paths. -/
def Obligations.JneJumpsWhenNone : Prop :=
  (∀ (c : Params) (pads : List Byte), c.Distinct → decodeWith c (c.opcJne :: pads) = .ok .jne) ∧
  ∀ s : State,
    (s.pc.toNat ≤ 6 → ∃ (v : Word) (t : State), regRead (s.pc.toNat + 1) s = .ok v ∧
      exec .jne s = .next t ∧
      (s.fl = .none → t.pc.toNat = v.toNat + 2) ∧ (s.fl ≠ .none → t.pc.toNat = s.pc.toNat + 2) ∧
      (∀ i, regRead i t = regRead i s) ∧ t.fl = s.fl ∧ (∀ a, memRead a t = memRead a s) ∧ t.fault = s.fault) ∧
    (7 ≤ s.pc.toNat → exec .jne s = .next (raise (.outOfBounds .reg (s.pc.toNat + 1)) s))

/-- R12, R19, R29, R58, R85: what each of the five instructions leaves alone. None writes memory; only LDI writes a
register, the one it names; only CMP writes the flag register; the latch changes only by a raise, which changes nothing
else. -/
def Obligations.InstructionsChangeOnlyTheirDestination : Prop :=
  ∀ (i : Instr) (s t : State), exec i s = .next t →
    (∀ a, memRead a t = memRead a s) ∧
    (∀ k, (∀ r v, i = .ldi r v → k ≠ r) → regRead k t = regRead k s) ∧
    (i ≠ .cmp → t.fl = s.fl) ∧
    (t.fault = s.fault ∨ ∃ cond, t = { s with fault := some cond })

/-- R67: CMP followed by JEQ or by JNE: JEQ is taken exactly on equality, JNE exactly on "greater". Derived from R63,
R70, R71. -/
def Obligations.CmpThenConditionalJumpFollowsItsTable : Prop :=
  ∀ s : State, s.pc.toNat ≤ 3 →
    ∃ (a b v : Word) (t ue un : State),
      regRead 0 s = .ok a ∧ regRead 1 s = .ok b ∧ regRead (s.pc.toNat + 4) s = .ok v ∧
      exec .cmp s = .next t ∧ exec .jeq t = .next ue ∧ exec .jne t = .next un ∧
      ue.pc.toNat = (if a.toNat = b.toNat then v.toNat + 2 else s.pc.toNat + 5) ∧
      un.pc.toNat = (if b.toNat < a.toNat then v.toNat + 2 else s.pc.toNat + 5)

/-! ## The step -/

/-- R54 to R59: a step of a core that is not halted runs the instruction that the bytes at `pc` decode to, and adds
nothing to it. That LDI's operands are read before its operation is the model's division (log 3). -/
def Obligations.StepRunsTheDecodedInstruction : Prop :=
  ∀ (s : State) (i : Instr), s.fault = none → decode (bytesAtPc s) = .ok i → step s = exec i s

/-- R60, R86, R102: a core has a next step exactly while it is not halted; a halted one takes none. The named fault of
a halted core is the model's (log 4). -/
def Obligations.StepExistsExactlyWhileNotHalted : Prop :=
  ∀ (c : Params) (s : State),
    ((∃ t, stepWith c s = .next t) ↔ s.fault = none) ∧
    ∀ cond, s.fault = some cond → stepWith c s = .fault (.halted cond)

/-- R61: the whole of an LDI step: the two operand addresses and the register index are checked in this order, and only
then the register and `pc` are written. The opcode byte is 0x82. -/
def Obligations.LdiStepChecksThenWrites : Prop :=
  Config.hardware.params.opcLdi = 0x82#8 ∧
  ∀ (c : Params) (s : State), s.fault = none → s.pc.toNat < memSize → memRead s.pc.toNat s = .ok c.opcLdi →
    (memSize ≤ s.pc.toNat + 1 → stepWith c s = .next (raise (.outOfBounds .mem (s.pc.toNat + 1)) s)) ∧
    (∀ r, memRead (s.pc.toNat + 1) s = .ok r →
      (memSize ≤ s.pc.toNat + 2 → stepWith c s = .next (raise (.outOfBounds .mem (s.pc.toNat + 2)) s)) ∧
      ∀ v, memRead (s.pc.toNat + 2) s = .ok v →
        (nregs ≤ r.toNat → stepWith c s = .next (raise (.outOfBounds .reg r.toNat) s)) ∧
        (∀ h : r.toNat < nregs, stepWith c s =
          .next { s with x := s.x.set r.toNat v h, pc := BitVec.ofNat pcw (s.pc.toNat + 3) }))

/-- R62: LDI's frame property, as a step. -/
def Obligations.LdiStepMutatesNoOtherState : Prop :=
  ∀ (c : Params) (s : State) (r v : Byte), s.fault = none → s.pc.toNat + 2 < memSize →
    memRead s.pc.toNat s = .ok c.opcLdi → memRead (s.pc.toNat + 1) s = .ok r → r.toNat ≤ 7 →
    memRead (s.pc.toNat + 2) s = .ok v →
    ∃ t : State, stepWith c s = .next t ∧
      regRead r.toNat t = .ok v ∧ (∀ i, i ≠ r.toNat → regRead i t = regRead i s) ∧
      t.pc.toNat = s.pc.toNat + 3 ∧ t.fl = s.fl ∧ (∀ a, memRead a t = memRead a s) ∧ t.fault = none

/-- R75: a fetched byte with no dispatch table entry records `UnknownOpcode` with the byte and its address, and nothing
else raises it. -/
def Obligations.UnknownOpcodeIsRaisedExactlyByIllegalBytes : Prop :=
  ∀ (c : Params) (s : State), s.fault = none →
    ∃ t : State, stepWith c s = .next t ∧
      (∀ op a, t.fault = some (.unknownOpcode op a) ↔
        a = s.pc.toNat ∧ memRead s.pc.toNat s = .ok op ∧ op ∉ c.opcodes) ∧
      (∀ op, memRead s.pc.toNat s = .ok op → op ∉ c.opcodes → statusPort t =
        { halted := true, cause := 1#2, infoSpace := 0#1, infoIndex := s.pc, infoOpcode := op })

/-- R76: `OutOfBounds(MEM, a)` is raised at the three sites of its table and nowhere else, with the address reported
there. -/
def Obligations.MemoryOutOfBoundsIsRaisedExactlyAtItsSites : Prop :=
  ∀ (c : Params) (s : State), s.fault = none →
    ∃ t : State, stepWith c s = .next t ∧
      ∀ a, (t.fault = some (.outOfBounds .mem a) ↔
          (memSize ≤ s.pc.toNat ∧ a = s.pc.toNat) ∨
          (s.pc.toNat = 99 ∧ memRead 99 s = .ok c.opcLdi ∧ a = 100) ∨
          (s.pc.toNat = 98 ∧ memRead 98 s = .ok c.opcLdi ∧ a = 100)) ∧
        (t.fault = some (.outOfBounds .mem a) → statusPort t =
          { halted := true, cause := 2#2, infoSpace := 0#1, infoIndex := BitVec.ofNat pcw a, infoOpcode := 0#8 })

/-- R77: `OutOfBounds(REG, i)` is raised at the two sites of its table and nowhere else: LDI's register write, which
the memory checks precede (R82), and the jumps' operand read, taken or not. -/
def Obligations.RegisterOutOfBoundsIsRaisedExactlyAtItsSites : Prop :=
  ∀ (c : Params) (s : State), c.Distinct → s.fault = none →
    ∃ t : State, stepWith c s = .next t ∧
      ∀ i, (t.fault = some (.outOfBounds .reg i) ↔
          (s.pc.toNat + 2 < memSize ∧ memRead s.pc.toNat s = .ok c.opcLdi ∧
            (∃ r, memRead (s.pc.toNat + 1) s = .ok r ∧ nregs ≤ r.toNat ∧ i = r.toNat)) ∨
          (7 ≤ s.pc.toNat ∧ i = s.pc.toNat + 1 ∧
            (∃ op, memRead s.pc.toNat s = .ok op ∧ op ∈ [c.opcJmp, c.opcJeq, c.opcJne]))) ∧
        (t.fault = some (.outOfBounds .reg i) → statusPort t =
          { halted := true, cause := 2#2, infoSpace := 1#1, infoIndex := BitVec.ofNat pcw i, infoOpcode := 0#8 })

/-- R85: a step that raises changes nothing but the fault latch, and no step follows it. -/
def Obligations.RaisesArePrecise : Prop :=
  ∀ (c : Params) (s t : State) (cond : Condition), stepWith c s = .next t → t.fault = some cond →
    t.mem = s.mem ∧ t.x = s.x ∧ t.pc = s.pc ∧ t.fl = s.fl ∧ ∀ u, stepWith c t ≠ .next u

/-- R22, R60, R86: once the latch is set, no event but `reset` changes it, and after `run` none changes anything at
all. The events are the model's rendering of the abstract ports (log 10). -/
def Obligations.FaultLatchIsClearedByResetOnly : Prop :=
  ∀ (c : Params) (events : List Event) (σ τ : System) (cond : Condition),
    Event.reset ∉ events → σ.core.fault = some cond → System.afterAll c events σ = some τ →
    τ.core.fault = some cond ∧ (σ.phase = .running → τ = σ)

/-- R19: a step that changes the flag register is a CMP. -/
def Obligations.OnlyCmpWritesTheFlagRegister : Prop :=
  ∀ (c : Params) (s t : State), stepWith c s = .next t → t.fl ≠ s.fl →
    memRead s.pc.toNat s = .ok c.opcCmp

/-- R12: a step that changes a register is an LDI, and the register and its new value are the LDI's two operand
bytes. -/
def Obligations.OnlyLdiWritesARegister : Prop :=
  ∀ (c : Params) (s t : State) (i : Nat), stepWith c s = .next t → regRead i t ≠ regRead i s →
    memRead s.pc.toNat s = .ok c.opcLdi ∧
    (∃ r, memRead (s.pc.toNat + 1) s = .ok r ∧ i = r.toNat) ∧
    ∃ v, memRead (s.pc.toNat + 2) s = .ok v ∧ regRead i t = .ok v

/-- R19, R95: only JEQ and JNE read the flag register. For a step of anything else the flag register before it decides
nothing but, where it is not overwritten, the flag register after it. Derived. -/
def Obligations.OnlyConditionalJumpsReadTheFlagRegister : Prop :=
  ∀ (c : Params) (s : State) (f : Flag), s.fault = none →
    (∀ op, memRead s.pc.toNat s = .ok op → op ≠ c.opcJeq ∧ op ≠ c.opcJne) →
    ∃ t u : State, stepWith c s = .next t ∧ stepWith c { s with fl := f } = .next u ∧
      u.mem = t.mem ∧ u.x = t.x ∧ u.pc = t.pc ∧ u.fault = t.fault ∧
      (u.fl = t.fl ∨ (u.fl = f ∧ t.fl = s.fl))

/-- R47: CMP and the jumps read no byte of memory but their opcode: with any other memory that has the same byte at
`pc` the step is the same. -/
def Obligations.PadBytesAndOtherMemoryAreIgnored : Prop :=
  ∀ (c : Params) (s : State) (m : Memory), c.Distinct → s.fault = none → s.pc.toNat < memSize →
    s.mem.read s.pc.toNat ∈ [c.opcCmp, c.opcJmp, c.opcJeq, c.opcJne] →
    m.read s.pc.toNat = s.mem.read s.pc.toNat →
    ∃ t : State, stepWith c s = .next t ∧ stepWith c { s with mem := m } = .next { t with mem := m }

/-- R72: only a jump standing at an address of at most 6 moves control to a lower address, and never to 0 or 1.
Derived. -/
def Obligations.BackwardTransferComesFromAJumpBelow7 : Prop :=
  ∀ (c : Params) (s t : State), stepWith c s = .next t → t.pc.toNat < s.pc.toNat →
    s.pc.toNat ≤ 6 ∧ 2 ≤ t.pc.toNat ∧
    ∃ op, memRead s.pc.toNat s = .ok op ∧ op ∈ [c.opcJmp, c.opcJeq, c.opcJne]

/-- The step function of R59, written out from its page: one expression over the state, with no fetch stage, no
instruction type and no dispatch. -/
def Sys2Proof.Spec.pageStep (c : Params) (s : State) : State :=
  let p := s.pc.toNat
  let op := s.mem.read p
  if memSize ≤ p then { s with fault := some (.outOfBounds .mem p) }
  else if op = c.opcLdi then
    if memSize ≤ p + 1 then { s with fault := some (.outOfBounds .mem (p + 1)) }
    else if memSize ≤ p + 2 then { s with fault := some (.outOfBounds .mem (p + 2)) }
    else if h : (s.mem.read (p + 1)).toNat < nregs then
      { s with x := s.x.set (s.mem.read (p + 1)).toNat (s.mem.read (p + 2)) h, pc := BitVec.ofNat pcw (p + 3) }
    else { s with fault := some (.outOfBounds .reg (s.mem.read (p + 1)).toNat) }
  else if op = c.opcCmp then
    { s with
      fl := if s.x[0] = s.x[1] then .equal else if s.x[0].toNat < s.x[1].toNat then .lessThan else .none
      pc := BitVec.ofNat pcw (p + 3) }
  else if op = c.opcJmp then
    if h : p + 1 < nregs then { s with pc := BitVec.ofNat pcw (s.x[p + 1].toNat + 2) }
    else { s with fault := some (.outOfBounds .reg (p + 1)) }
  else if op = c.opcJeq then
    if h : p + 1 < nregs then
      { s with pc := BitVec.ofNat pcw (if s.fl = .equal then s.x[p + 1].toNat + 2 else p + 2) }
    else { s with fault := some (.outOfBounds .reg (p + 1)) }
  else if op = c.opcJne then
    if h : p + 1 < nregs then
      { s with pc := BitVec.ofNat pcw (if s.fl = .none then s.x[p + 1].toNat + 2 else p + 2) }
    else { s with fault := some (.outOfBounds .reg (p + 1)) }
  else { s with fault := some (.unknownOpcode op p) }

/-- R59: on every state that is not halted, and for every value of the open parameters, the model's step is the step function of R59's
page. -/
def Obligations.StepIsTheStepFunctionOfItsPage : Prop :=
  ∀ (c : Params) (s : State), s.fault = none → stepWith c s = .next (Sys2Proof.Spec.pageStep c s)

/-! ## Invariants -/

/-- Every step keeps the invariant: memory canonical and in range, `pc` at most 257 (R17), no `GREATER_THAN` (R20), and
a latch that holds what its state raised (R22, R75 to R78). -/
def Obligations.InvariantIsKeptByEveryStep : Prop :=
  ∀ (c : Params) (s t : State), Inv c s → stepWith c s = .next t → Inv c t

/-- The reset state meets the invariant. Of `FL_RESET` it needs only that it is not `GREATER_THAN` (R24). -/
def Obligations.ResetStateMeetsTheInvariant : Prop := Inv Config.hardware.params State.reset

/-- R14, R17, R20, R66: in every state a run passes through, from any image, `FL` is not `GREATER_THAN`, `pc` is at
most 257, memory is canonical, and what the latch records is what the state raised. Derived. -/
def Obligations.ReachableStatesMeetTheInvariant : Prop :=
  ∀ (c : Params) (s : State), c.flReset ≠ .greaterThan → Reachable c s → Inv c s

/-! ## Encoding -/

/-- Decoding the bytes of a well-formed instruction gives it back, for any opcode values that are pairwise distinct,
any pad bytes and whatever bytes follow (R42, R43, R53). -/
def Obligations.DecodeOfEncodeIsTheInstruction : Prop :=
  ∀ (c : Params) (p1 p2 : Byte) (i : Instr) (rest : List Byte), c.Distinct → i.wf = true →
    decodeWith c (encodePadded c p1 p2 i ++ rest) = .ok i

/-- What decodes to an instruction is that instruction's bytes: it is well formed, and as far as the bytes go they are
its encoding for some pad bytes (R42, R43, R47). -/
def Obligations.DecodedBytesAreTheInstructionsEncoding : Prop :=
  ∀ (c : Params) (bytes : List Byte) (i : Instr), decodeWith c bytes = .ok i →
    i.wf = true ∧ ∃ p1 p2, bytes.take i.length <+: encodePadded c p1 p2 i

/-- R48: a byte is rejected as an opcode exactly when it is none of the five opcode values, whatever follows it. -/
def Obligations.IllegalOpcodesAreExactlyTheOtherBytes : Prop :=
  ∀ (c : Params) (op : Byte) (rest : List Byte),
    decodeWith c (op :: rest) = .error (.unknownOpcode op) ↔ op ∉ c.opcodes

/-- R45, R43: words written out from the spec's encodings. The opcode bytes of CMP, JMP, JEQ and JNE are presumed
(log 1). -/
def Obligations.WordsOfTheEncodingTableDecode : Prop :=
  decode [0b10000010#8, 0b00000000#8, 0b00000011#8] = .ok (.ldi 0 3#8) ∧
  decode [0b10000010#8, 0b11111111#8, 0b10000010#8] = .ok (.ldi 255 130#8) ∧
  decode [0b10100111#8, 0b00000010#8, 0b00000011#8] = .ok .cmp ∧
  decode [0b01010100#8, 0b00000111#8] = .ok .jmp ∧
  decode [0b01010101#8, 0b00000000#8] = .ok .jeq ∧
  decode [0b01010110#8, 0b00000000#8] = .ok .jne ∧
  decode [0b10000011#8, 0b00000000#8, 0b00000000#8] = .error (.unknownOpcode 0b10000011#8) ∧
  decode [0b10000010#8, 0b00000000#8] = .error (.missingByte 2)
end

