-- ==== Sys2Proof/Laws/State.lean ====
section
/-! SUPPORT. One lemma per field per update of State. -/

namespace Sys2Proof.Machine

section setPc
variable (n : Nat) (s : State)
@[simp] theorem setPc_mem : (setPc n s).mem = s.mem := rfl
@[simp] theorem setPc_x : (setPc n s).x = s.x := rfl
@[simp] theorem setPc_pc : (setPc n s).pc = BitVec.ofNat pcw n := rfl
@[simp] theorem setPc_fl : (setPc n s).fl = s.fl := rfl
@[simp] theorem setPc_fault : (setPc n s).fault = s.fault := rfl
end setPc

section setFlag
variable (f : Flag) (s : State)
@[simp] theorem setFlag_mem : (setFlag f s).mem = s.mem := rfl
@[simp] theorem setFlag_x : (setFlag f s).x = s.x := rfl
@[simp] theorem setFlag_pc : (setFlag f s).pc = s.pc := rfl
@[simp] theorem setFlag_fl : (setFlag f s).fl = f := rfl
@[simp] theorem setFlag_fault : (setFlag f s).fault = s.fault := rfl
end setFlag

section setReg
variable (i : Nat) (v : Word) (h : i < nregs) (s : State)
@[simp] theorem setReg_mem : (setReg i v h s).mem = s.mem := rfl
@[simp] theorem setReg_x : (setReg i v h s).x = s.x.set i v h := rfl
@[simp] theorem setReg_pc : (setReg i v h s).pc = s.pc := rfl
@[simp] theorem setReg_fl : (setReg i v h s).fl = s.fl := rfl
@[simp] theorem setReg_fault : (setReg i v h s).fault = s.fault := rfl
end setReg

section setMem
variable (a : Nat) (b : Byte) (s : State)
@[simp] theorem setMem_mem : (setMem a b s).mem = s.mem.write a b := rfl
@[simp] theorem setMem_x : (setMem a b s).x = s.x := rfl
@[simp] theorem setMem_pc : (setMem a b s).pc = s.pc := rfl
@[simp] theorem setMem_fl : (setMem a b s).fl = s.fl := rfl
@[simp] theorem setMem_fault : (setMem a b s).fault = s.fault := rfl
end setMem

section raise
variable (c : Condition) (s : State)
@[simp] theorem raise_mem : (raise c s).mem = s.mem := rfl
@[simp] theorem raise_x : (raise c s).x = s.x := rfl
@[simp] theorem raise_pc : (raise c s).pc = s.pc := rfl
@[simp] theorem raise_fl : (raise c s).fl = s.fl := rfl
@[simp] theorem raise_fault : (raise c s).fault = some c := rfl
end raise

section reset
variable (f : Flag)
@[simp] theorem resetWith_mem : (State.resetWith f).mem = [] := rfl
@[simp] theorem resetWith_x : (State.resetWith f).x = Vector.replicate nregs 0#xlen := rfl
@[simp] theorem resetWith_pc : (State.resetWith f).pc = 0#pcw := rfl
@[simp] theorem resetWith_fl : (State.resetWith f).fl = f := rfl
@[simp] theorem resetWith_fault : (State.resetWith f).fault = none := rfl
end reset

/-- Two states are equal when all five pieces of R9 are. -/
theorem State.ext_fields {s t : State} (hm : s.mem = t.mem) (hx : s.x = t.x) (hp : s.pc = t.pc) (hf : s.fl = t.fl)
    (hl : s.fault = t.fault) : s = t := by
  cases s; cases t; simp_all

end Sys2Proof.Machine
end

