-- ==== Sys2Proof/Laws/Memory.lean ====
section
/-! SUPPORT. Memory: read after write, and the canonical form kept by every memory operation. -/

namespace Sys2Proof.Machine

@[simp] theorem Memory.read_nil (k : Nat) : Memory.read [] k = 0#8 := rfl

theorem Memory.read_cons (a : Nat) (b : Byte) (m : Memory) (k : Nat) :
    Memory.read ((a, b) :: m) k = if a = k then b else Memory.read m k := rfl

/-- An address below every listed one is not listed. -/
theorem Memory.read_of_lt {m : Memory} {k : Nat} (h : ∀ p ∈ m, k < p.1) : Memory.read m k = 0#8 := by
  induction m with
  | nil => rfl
  | cons p m ih =>
    obtain ⟨a, b⟩ := p
    have ha : k < a := h (a, b) (by simp)
    rw [Memory.read_cons, if_neg (by omega), ih fun q hq => h q (by simp [hq])]

/-- What a listed cell holds is what reading it gives. -/
theorem Memory.read_of_mem {m : Memory} (hm : m.Pairwise fun p q => p.1 < q.1) {p : Host.Cell} (hp : p ∈ m) :
    Memory.read m p.1 = p.2 := by
  induction m with
  | nil => cases hp
  | cons q m ih =>
    obtain ⟨a, b⟩ := q
    rw [List.pairwise_cons] at hm
    rw [Memory.read_cons]
    rcases List.mem_cons.1 hp with rfl | hp
    · simp
    · rw [if_neg (by have := hm.1 p hp; simp only at this; omega), ih hm.2 hp]

/-- Read after write: the written cell holds the value, every other cell what it held. -/
theorem Memory.read_write {m : Memory} (hm : m.Pairwise fun p q => p.1 < q.1) (k : Nat) (v : Byte) (a : Nat) :
    Memory.read (Memory.write m k v) a = if a = k then v else Memory.read m a := by
  induction m with
  | nil => by_cases hv : v = 0#8 <;> by_cases ha : k = a <;> simp [Memory.write, Memory.read, hv, ha, @eq_comm _ a k]
  | cons p m ih =>
    obtain ⟨b, w⟩ := p
    rw [List.pairwise_cons] at hm
    have hlow : k ≤ b → Memory.read m k = 0#8 := fun h => Memory.read_of_lt fun q hq => by
      have := hm.1 q hq
      simp only at this
      omega
    simp only [Memory.write]
    by_cases h1 : k < b
    · by_cases hv : v = 0#8 <;> by_cases ha : a = k
      · subst ha
        simp [h1, hv, Memory.read_cons, show ¬ b = a by omega, hlow (by omega)]
      · simp [h1, hv, ha]
      · simp [h1, hv, ha, Memory.read_cons]
      · simp [h1, hv, ha, Memory.read_cons, Ne.symm ha]
    · by_cases h2 : k = b
      · subst h2
        by_cases hv : v = 0#8 <;> by_cases ha : a = k
        · subst ha; simp [hv, hlow]
        · simp [hv, ha, Memory.read_cons, Ne.symm ha]
        · simp [hv, ha, Memory.read_cons]
        · simp [hv, ha, Memory.read_cons, Ne.symm ha]
      · simp only [h1, h2, if_false, Memory.read_cons, ih hm.2]
        by_cases hb : b = a
        · subst hb; simp [Ne.symm h2]
        · simp [hb]

/-- The cells of a written memory are the written one and cells it had before. -/
theorem Memory.mem_write {m : Memory} {k : Nat} {v : Byte} {p : Host.Cell} (hp : p ∈ Memory.write m k v) :
    (p = (k, v) ∧ v ≠ 0#8) ∨ p ∈ m := by
  induction m with
  | nil =>
    simp only [Memory.write] at hp
    split at hp <;> simp_all
  | cons q m ih =>
    simp only [Memory.write] at hp
    split at hp
    · split at hp <;> simp_all
    · split at hp
      · split at hp <;> simp_all
        rcases hp with rfl | hp <;> simp_all
      · rcases List.mem_cons.1 hp with rfl | hp
        · simp
        · rcases ih hp with h | h <;> simp [h]

theorem Memory.pairwise_write {m : Memory} (hm : m.Pairwise fun p q => p.1 < q.1) (k : Nat) (v : Byte) :
    (Memory.write m k v).Pairwise fun p q => p.1 < q.1 := by
  induction m with
  | nil => simp only [Memory.write]; split <;> simp
  | cons q m ih =>
    obtain ⟨b, w⟩ := q
    have hc := List.pairwise_cons.1 hm
    simp only [Memory.write]
    split
    · next h =>
      split
      · exact hm
      · refine List.pairwise_cons.2 ⟨fun p hp => ?_, hm⟩
        rcases List.mem_cons.1 hp with rfl | hp
        · exact h
        · exact lt_trans h (hc.1 p hp)
    · split
      · next h =>
        split
        · exact hc.2
        · refine List.pairwise_cons.2 ⟨fun p hp => ?_, hc.2⟩
          have := hc.1 p hp
          simp only at this ⊢
          omega
      · next h1 h2 =>
        refine List.pairwise_cons.2 ⟨fun p hp => ?_, ih hc.2⟩
        rcases Memory.mem_write hp with ⟨rfl, -⟩ | hp
        · simp only; omega
        · exact hc.1 p hp

/-- A write of an existing cell keeps the canonical form. -/
theorem Memory.wf_write {m : Memory} (hm : m.wf) {k : Nat} (hk : k < memSize) (v : Byte) : (m.write k v).wf := by
  refine ⟨Memory.pairwise_write hm.1 k v, fun p hp => ?_⟩
  rcases Memory.mem_write hp with ⟨rfl, hv⟩ | hp
  · exact ⟨hk, hv⟩
  · exact hm.2 p hp

theorem Memory.wf_nil : Memory.wf [] := by simp [Memory.wf]

/-- Nothing is listed outside the address space. -/
theorem Memory.read_of_ge {m : Memory} (hm : m.wf) {k : Nat} (hk : memSize ≤ k) : m.read k = 0#8 := by
  obtain ⟨-, h⟩ := hm
  induction m with
  | nil => rfl
  | cons p m ih =>
    obtain ⟨a, b⟩ := p
    have ha : a < memSize := (h (a, b) (by simp)).1
    rw [Memory.read_cons, if_neg (by omega), ih fun q hq => h q (by simp [hq])]

end Sys2Proof.Machine
end

