-- ==== Sys2Proof/Laws/Ops.lean ====
section
/-! SUPPORT. What each shared operation can do, said once. -/

namespace Sys2Proof.Machine

section
variable {ε α β : Type}
@[simp] theorem ok_bind (a : α) (f : α → Except ε β) : (Except.ok a >>= f) = f a := rfl
@[simp] theorem error_bind (e : ε) (f : α → Except ε β) : (Except.error e >>= f) = Except.error e := rfl
@[simp] theorem pure_ok (a : α) : (pure a : Except ε α) = Except.ok a := rfl
@[simp] theorem throw_error (e : ε) : (throw e : Except ε α) = Except.error e := rfl
end

/-! The parameters' values, for arithmetic: `omega` takes each as a hypothesis. -/

theorem memSize_eq : memSize = 100 := rfl
theorem nregs_eq : nregs = 8 := rfl
theorem cellBits_eq : cellBits = 8 := rfl
theorem xlen_eq : xlen = 8 := rfl
theorem pcw_eq : pcw = 9 := rfl
theorem two_pow_cellBits : 2 ^ cellBits = 256 := rfl
theorem two_pow_xlen : 2 ^ xlen = 256 := rfl
theorem two_pow_pcw : 2 ^ pcw = 512 := rfl

/-- The range of a byte's value (R7). -/
theorem byte_toNat_lt (b : Byte) : b.toNat < 256 := b.isLt

/-- The range of a register's value (R14). -/
theorem word_toNat_lt (v : Word) : v.toNat < 256 := v.isLt

/-- The range of the program counter (R15). -/
theorem pc_toNat_lt (p : Pc) : p.toNat < 512 := p.isLt

theorem memRead_of_lt {a : Nat} (h : a < memSize) (s : State) : memRead a s = .ok (s.mem.read a) := if_pos h

theorem memRead_of_ge {a : Nat} (h : memSize ≤ a) (s : State) : memRead a s = .error (.outOfBounds .mem a) :=
  if_neg (by omega)

theorem memRead_eq_ok {a : Nat} {s : State} {b : Byte} : memRead a s = .ok b ↔ a < memSize ∧ s.mem.read a = b := by
  by_cases h : a < memSize <;> simp [memRead, h]

theorem memRead_eq_error {a : Nat} {s : State} {c : Condition} :
    memRead a s = .error c ↔ memSize ≤ a ∧ c = .outOfBounds .mem a := by
  by_cases h : a < memSize
  · simp [memRead, h, Nat.not_le.2 h]
  · simp [memRead, h, eq_comm]; intro; omega

/-- A checked memory read depends on memory alone. -/
theorem memRead_congr {s t : State} (h : t.mem = s.mem) (a : Nat) : memRead a t = memRead a s := by
  simp [memRead, h]

theorem regRead_of_lt {i : Nat} (h : i < nregs) (s : State) : regRead i s = .ok s.x[i] := dif_pos h

theorem regRead_of_ge {i : Nat} (h : nregs ≤ i) (s : State) : regRead i s = .error (.outOfBounds .reg i) :=
  dif_neg (by omega)

theorem regRead_eq_ok {i : Nat} {s : State} {v : Word} : regRead i s = .ok v ↔ ∃ h : i < nregs, s.x[i] = v := by
  by_cases h : i < nregs <;> simp [regRead, h]

/-- A checked register read depends on the register file alone. -/
theorem regRead_congr {s t : State} (h : t.x = s.x) (i : Nat) : regRead i t = regRead i s := by
  simp [regRead, h]

theorem regWrite_of_lt {i : Nat} (h : i < nregs) (v : Word) (s : State) : regWrite i v s = .ok (setReg i v h s) :=
  dif_pos h

theorem regWrite_of_ge {i : Nat} (h : nregs ≤ i) (v : Word) (s : State) :
    regWrite i v s = .error (.outOfBounds .reg i) := dif_neg (by omega)

/-- Read after a register write: the written register holds the value, every other one what it held. -/
theorem regRead_setReg {i : Nat} {v : Word} (h : i < nregs) (s : State) (k : Nat) :
    regRead k (setReg i v h s) = if k = i then .ok v else regRead k s := by
  by_cases hk : k < nregs
  · by_cases hki : k = i
    · subst hki; simp [regRead, h]
    · simp [regRead, hk, hki, Ne.symm hki]
  · simp [regRead, hk, show ¬ k = i by omega]

@[simp] theorem finish_ok (s t : State) : finish s (.ok t) = .next t := rfl
@[simp] theorem finish_error (s : State) (c : Condition) : finish s (.error c) = .next (raise c s) := rfl

/-- An instruction always ends in a next state: its own, or the one that only records a condition. -/
theorem finish_cases {s t : State} {r : Except Condition State} (h : finish s r = .next t) :
    r = .ok t ∨ ∃ c, r = .error c ∧ t = raise c s := by
  cases r with
  | ok u => left; simp_all
  | error c => right; simp_all

@[simp] theorem ldiValue_eq (v : Byte) : ldiValue v = v := by simp [ldiValue]

/-- CMP's operands are always there. -/
theorem cmpOperands_eq (s : State) : cmpOperands s = .ok (s.x[0], s.x[1]) := rfl

theorem jumpOperand_of_le {s : State} (h : s.pc.toNat ≤ 6) :
    jumpOperand s = .ok (s.x[s.pc.toNat + 1]'(show s.pc.toNat + 1 < nregs by simp only [nregs]; omega)) :=
  regRead_of_lt _ s

theorem jumpOperand_of_ge {s : State} (h : 7 ≤ s.pc.toNat) :
    jumpOperand s = .error (.outOfBounds .reg (s.pc.toNat + 1)) := regRead_of_ge (by simp only [nregs]; omega) s

@[simp] theorem alu_compare (a b : Word) : alu .compare a b = .ok (compareFlag a b) := rfl

/-- The comparison's three cases (R63). -/
theorem compareFlag_cases (a b : Word) :
    (a = b ∧ compareFlag a b = .equal) ∨ (a.toNat < b.toNat ∧ compareFlag a b = .lessThan) ∨
    (b.toNat < a.toNat ∧ compareFlag a b = .none) := by
  unfold compareFlag
  by_cases h : a = b
  · simp [h]
  · have hne : a.toNat ≠ b.toNat := fun e => h (BitVec.eq_of_toNat_eq e)
    by_cases hl : a.toNat < b.toNat
    · simp [h, hl]
    · right; right; simp [h, hl]; omega

theorem compareFlag_ne_greaterThan (a b : Word) : compareFlag a b ≠ .greaterThan := by
  rcases compareFlag_cases a b with ⟨-, h⟩ | ⟨-, h⟩ | ⟨-, h⟩ <;> simp [h]

/-- A value below `2 ^ PCW` written to the program counter is what it holds (R17). -/
theorem setPc_toNat {n : Nat} (h : n < 512) (s : State) : (setPc n s).pc.toNat = n := by
  simp [BitVec.toNat_ofNat, pcw, Nat.mod_eq_of_lt h]

theorem jumpTarget_lt (t : Word) : jumpTarget t ≤ 257 := by
  have := word_toNat_lt t
  simp only [jumpTarget]; omega

/-- A placed image keeps the canonical form while it fits. -/
theorem placeImage_wf {image : List Byte} {a : Nat} {s : State} (hs : s.mem.wf) (h : a + image.length ≤ memSize) :
    (placeImage image a s).mem.wf := by
  induction image generalizing a s with
  | nil => exact hs
  | cons b rest ih =>
    simp only [List.length_cons] at h
    exact ih (Memory.wf_write hs (by omega) b) (by omega)

/-- Bytes stored in memory keep the canonical form. -/
theorem storeBytes_wf {bytes : List Byte} {a : Nat} {s : State} (hs : s.mem.wf) :
    (storeBytes bytes a s).mem.wf := by
  induction bytes generalizing a s with
  | nil => exact hs
  | cons b rest ih =>
    refine ih ?_
    split
    · next h => exact Memory.wf_write hs h b
    · exact hs

/-- A placed image changes memory only. -/
theorem placeImage_fields (image : List Byte) (a : Nat) (s : State) :
    (placeImage image a s).x = s.x ∧ (placeImage image a s).pc = s.pc ∧ (placeImage image a s).fl = s.fl ∧
      (placeImage image a s).fault = s.fault := by
  induction image generalizing a s with
  | nil => simp [placeImage]
  | cons b rest ih => simpa [placeImage] using ih (a + 1) (setMem a b s)

end Sys2Proof.Machine
end

