-- ==== Sys2Proof/Laws/Decode.lean ====
section
/-! SUPPORT. The decoder, one lemma a dispatch table row, and its inversion. -/

namespace Sys2Proof

open Sys2Proof.Machine

section
variable {ε : Type} {c : Params} {read : Nat → Except ε Byte} {illegal : Byte → ε}

theorem decodeFrom_noOpcode {e : ε} (h : read 0 = .error e) : decodeFrom c read illegal = .error e := by
  simp [decodeFrom, h]

theorem decodeFrom_ldi (h : read 0 = .ok c.opcLdi) :
    decodeFrom c read illegal =
      (read 1 >>= fun r => read 2 >>= fun v => (Except.ok (Instr.ldi r.toNat v) : Except ε Instr)) := by
  simp [decodeFrom, h]

theorem decodeFrom_cmp (hc : c.Distinct) (h : read 0 = .ok c.opcCmp) : decodeFrom c read illegal = .ok .cmp := by
  simp only [OpenParams.Distinct, OpenParams.opcodes, List.nodup_cons, List.mem_cons, not_or] at hc
  simp [decodeFrom, h, Ne.symm hc.1.1]

theorem decodeFrom_jmp (hc : c.Distinct) (h : read 0 = .ok c.opcJmp) : decodeFrom c read illegal = .ok .jmp := by
  simp only [OpenParams.Distinct, OpenParams.opcodes, List.nodup_cons, List.mem_cons, not_or] at hc
  simp [decodeFrom, h, Ne.symm hc.1.2.1, Ne.symm hc.2.1.1]

theorem decodeFrom_jeq (hc : c.Distinct) (h : read 0 = .ok c.opcJeq) : decodeFrom c read illegal = .ok .jeq := by
  simp only [OpenParams.Distinct, OpenParams.opcodes, List.nodup_cons, List.mem_cons, not_or] at hc
  simp [decodeFrom, h, Ne.symm hc.1.2.2.1, Ne.symm hc.2.1.2.1, Ne.symm hc.2.2.1.1]

theorem decodeFrom_jne (hc : c.Distinct) (h : read 0 = .ok c.opcJne) : decodeFrom c read illegal = .ok .jne := by
  simp only [OpenParams.Distinct, OpenParams.opcodes, List.nodup_cons, List.mem_cons, not_or] at hc
  simp [decodeFrom, h, Ne.symm hc.1.2.2.2.1, Ne.symm hc.2.1.2.2.1, Ne.symm hc.2.2.1.2.1, Ne.symm hc.2.2.2.1.1]

theorem decodeFrom_illegal {op : Byte} (h : read 0 = .ok op) (hop : op ∉ c.opcodes) :
    decodeFrom c read illegal = .error (illegal op) := by
  simp only [OpenParams.opcodes, List.mem_cons, List.not_mem_nil, or_false, not_or] at hop
  simp [decodeFrom, h, hop]

/-- What the decoder can answer: the opcode it read and, for LDI, the two operand bytes. -/
theorem decodeFrom_eq_ok {i : Instr} (h : decodeFrom c read illegal = .ok i) :
    read 0 = .ok (i.opcode c) ∧
      (i = .cmp ∨ i = .jmp ∨ i = .jeq ∨ i = .jne ∨
        ∃ r v, i = .ldi (BitVec.toNat r) v ∧ read 1 = .ok r ∧ read 2 = .ok v) := by
  cases h0 : read 0 with
  | error e => simp [decodeFrom, h0] at h
  | ok op =>
    simp only [decodeFrom, h0, ok_bind] at h
    split at h
    · next hop =>
      cases h1 : read 1 with
      | error e => simp [h1] at h
      | ok r =>
        cases h2 : read 2 with
        | error e => simp [h1, h2] at h
        | ok v =>
          simp only [h1, h2, ok_bind, pure_ok, Except.ok.injEq] at h
          subst h hop
          exact ⟨rfl, by simp⟩
    · split at h
      · next hop => simp only [pure_ok, Except.ok.injEq] at h; subst h hop; exact ⟨rfl, by simp⟩
      · split at h
        · next hop => simp only [pure_ok, Except.ok.injEq] at h; subst h hop; exact ⟨rfl, by simp⟩
        · split at h
          · next hop => simp only [pure_ok, Except.ok.injEq] at h; subst h hop; exact ⟨rfl, by simp⟩
          · split at h
            · next hop => simp only [pure_ok, Except.ok.injEq] at h; subst h hop; exact ⟨rfl, by simp⟩
            · simp at h

/-- How the decoder can fail: the opcode, one of LDI's operands, or an opcode with no table entry. -/
theorem decodeFrom_eq_error {e : ε} (h : decodeFrom c read illegal = .error e) :
    read 0 = .error e ∨
      (read 0 = .ok c.opcLdi ∧ (read 1 = .error e ∨ ∃ r, read 1 = .ok r ∧ read 2 = .error e)) ∨
      ∃ op, read 0 = .ok op ∧ op ∉ c.opcodes ∧ e = illegal op := by
  cases h0 : read 0 with
  | error e' => simp [decodeFrom, h0] at h; simp [h]
  | ok op =>
    right
    by_cases hop : op ∈ c.opcodes
    · left
      simp only [decodeFrom, h0, ok_bind] at h
      split at h
      · next hl =>
        subst hl
        refine ⟨rfl, ?_⟩
        cases h1 : read 1 with
        | error e' => simp [h1] at h; simp [h]
        | ok r =>
          cases h2 : read 2 with
          | error e' => simp [h1, h2] at h; simp [h]
          | ok v => simp [h1, h2] at h
      · repeat' split at h
        all_goals simp_all [OpenParams.opcodes]
    · right
      rw [decodeFrom_illegal h0 hop] at h
      exact ⟨op, rfl, hop, by simpa using h.symm⟩

/-- Decoding depends on the bytes the decoder reads, not on how they are reached. -/
theorem decodeFrom_map_ok {δ : Type} {read' : Nat → Except δ Byte} {illegal' : Byte → δ} {i : Instr}
    (hr : ∀ k b, k < 3 → read k = .ok b → read' k = .ok b) (h : decodeFrom c read illegal = .ok i) :
    decodeFrom c read' illegal' = .ok i := by
  cases h0 : read 0 with
  | error e => simp [decodeFrom, h0] at h
  | ok op =>
    have h0' := hr 0 op (by omega) h0
    simp only [decodeFrom, h0, h0', ok_bind] at h ⊢
    split at h
    · cases h1 : read 1 with
      | error e => simp [h1] at h
      | ok r =>
        cases h2 : read 2 with
        | error e => simp [h1, h2] at h
        | ok v => simp_all [hr 1 r (by omega) h1, hr 2 v (by omega) h2]
    · next hop =>
      rw [if_neg hop]
      repeat' split at h
      all_goals simp_all

end

theorem byteAt_eq_ok {bytes : List Byte} {k : Nat} {b : Byte} : byteAt bytes k = .ok b ↔ bytes[k]? = some b := by
  unfold byteAt
  cases h : bytes[k]? <;> simp

theorem hardware_distinct : Config.hardware.params.Distinct := by decide

/-- A decoded instruction is well formed. -/
theorem decodeFrom_wf {ε : Type} {c : Params} {read : Nat → Except ε Byte} {illegal : Byte → ε} {i : Instr}
    (h : decodeFrom c read illegal = .ok i) : i.wf = true := by
  rcases (decodeFrom_eq_ok h).2 with rfl | rfl | rfl | rfl | ⟨r, v, rfl, -⟩ <;> simp [Instr.wf]
  exact r.isLt

end Sys2Proof
end

