-- ==== Sys2Proof/Laws/Exec.lean ====
section
/-! SUPPORT. What each instruction does, as one equation a case, and what none of them can do. -/

namespace Sys2Proof.Machine

theorem exec_ldi_of_lt {r : Nat} (h : r < nregs) (v : Byte) (s : State) :
    exec (.ldi r v) s = .next (setPc (s.pc.toNat + 3) (setReg r v h s)) := by
  simp [exec, execLdi, regWrite_of_lt h]

theorem exec_ldi_of_ge {r : Nat} (h : nregs ≤ r) (v : Byte) (s : State) :
    exec (.ldi r v) s = .next (raise (.outOfBounds .reg r) s) := by
  simp [exec, execLdi, regWrite_of_ge h]

theorem exec_cmp (s : State) :
    exec .cmp s = .next (setPc (s.pc.toNat + 3) (setFlag (compareFlag s.x[0] s.x[1]) s)) := by
  simp [exec, execCmp, cmpOperands_eq]

/-- The register a jump at an address of at most 6 reads (R68). -/
abbrev jumpReg (s : State) (h : s.pc.toNat ≤ 6) : Word :=
  s.x[s.pc.toNat + 1]'(show s.pc.toNat + 1 < nregs by simp only [nregs]; omega)

theorem jumpIf_of_le {s : State} (h : s.pc.toNat ≤ 6) (taken : Bool) :
    jumpIf taken s = .next (setPc (if taken then jumpTarget (jumpReg s h) else s.pc.toNat + 2) s) := by
  simp [jumpIf, jumpOperand_of_le h]

theorem jumpIf_of_ge {s : State} (h : 7 ≤ s.pc.toNat) (taken : Bool) :
    jumpIf taken s = .next (raise (.outOfBounds .reg (s.pc.toNat + 1)) s) := by
  simp [jumpIf, jumpOperand_of_ge h]

/-- The flag value that decides whether an instruction jumps. -/
def jumpTaken (s : State) : Instr → Bool
  | .ldi _ _ => false
  | .cmp => false
  | .jmp => true
  | .jeq => s.fl == .equal
  | .jne => s.fl == .none

/-- The three jumps are one shared operation under their conditions. -/
theorem exec_jump {i : Instr} (hi : i = .jmp ∨ i = .jeq ∨ i = .jne) (s : State) :
    exec i s = jumpIf (jumpTaken s i) s := by
  rcases hi with rfl | rfl | rfl <;> rfl

/-- Everything an instruction can do: LDI's register write, CMP's flag write, a jump, or a raise at a register. -/
theorem exec_cases {i : Instr} {s t : State} (h : exec i s = .next t) :
    (∃ r v, ∃ hr : r < nregs, i = .ldi r v ∧ t = setPc (s.pc.toNat + 3) (setReg r v hr s)) ∨
    (i = .cmp ∧ t = setPc (s.pc.toNat + 3) (setFlag (compareFlag s.x[0] s.x[1]) s)) ∨
    ((i = .jmp ∨ i = .jeq ∨ i = .jne) ∧ ∃ hp : s.pc.toNat ≤ 6,
      t = setPc (if jumpTaken s i then jumpTarget (jumpReg s hp) else s.pc.toNat + 2) s) ∨
    ((∃ r v, i = .ldi r v ∧ nregs ≤ r ∧ t = raise (.outOfBounds .reg r) s)) ∨
    ((i = .jmp ∨ i = .jeq ∨ i = .jne) ∧ 7 ≤ s.pc.toNat ∧
      t = raise (.outOfBounds .reg (s.pc.toNat + 1)) s) := by
  by_cases hj : i = .jmp ∨ i = .jeq ∨ i = .jne
  · rw [exec_jump hj] at h
    by_cases hp : s.pc.toNat ≤ 6
    · rw [jumpIf_of_le hp, Host.Outcome.next.injEq] at h
      exact .inr (.inr (.inl ⟨hj, hp, h.symm⟩))
    · rw [jumpIf_of_ge (by omega), Host.Outcome.next.injEq] at h
      exact .inr (.inr (.inr (.inr ⟨hj, by omega, h.symm⟩)))
  · cases i with
    | ldi r v =>
      by_cases hr : r < nregs
      · rw [exec_ldi_of_lt hr, Host.Outcome.next.injEq] at h
        exact .inl ⟨r, v, hr, rfl, h.symm⟩
      · rw [exec_ldi_of_ge (by omega), Host.Outcome.next.injEq] at h
        exact .inr (.inr (.inr (.inl ⟨r, v, rfl, by omega, h.symm⟩)))
    | cmp =>
      rw [exec_cmp, Host.Outcome.next.injEq] at h
      exact .inr (.inl ⟨rfl, h.symm⟩)
    | jmp => simp at hj
    | jeq => simp at hj
    | jne => simp at hj

/-- Every instruction ends in a next state. -/
theorem exec_total (i : Instr) (s : State) : ∃ t, exec i s = .next t := by
  by_cases hj : i = .jmp ∨ i = .jeq ∨ i = .jne
  · rw [exec_jump hj]
    by_cases hp : s.pc.toNat ≤ 6
    · exact ⟨_, jumpIf_of_le hp _⟩
    · exact ⟨_, jumpIf_of_ge (by omega) _⟩
  · cases i with
    | ldi r v =>
      by_cases hr : r < nregs
      · exact ⟨_, exec_ldi_of_lt hr v s⟩
      · exact ⟨_, exec_ldi_of_ge (by omega) v s⟩
    | cmp => exact ⟨_, exec_cmp s⟩
    | jmp => simp at hj
    | jeq => simp at hj
    | jne => simp at hj

end Sys2Proof.Machine
end

