-- ==== Sys2Proof/Laws/PerInstr.lean ====
section
/-! SUPPORT. Statements made once per instruction, over its syntax and its encoding. -/

namespace Sys2Proof.Laws.EncodedLength

/-- An instruction's bytes are as many as its length says, the opcode first, whatever the parameters and the pad
bytes are (R42, R43). -/
def Statement (i : Instr) : Prop :=
  ∀ (c : Params) (p1 p2 : Byte),
    (encodePadded c p1 p2 i).length = i.length ∧ (encodePadded c p1 p2 i).head? = some (i.opcode c)

theorem ldi (r : Nat) (v : Byte) : Statement (.ldi r v) := fun _ _ _ => ⟨rfl, rfl⟩
theorem cmp : Statement .cmp := fun _ _ _ => ⟨rfl, rfl⟩
theorem jmp : Statement .jmp := fun _ _ _ => ⟨rfl, rfl⟩
theorem jeq : Statement .jeq := fun _ _ _ => ⟨rfl, rfl⟩
theorem jne : Statement .jne := fun _ _ _ => ⟨rfl, rfl⟩

end Sys2Proof.Laws.EncodedLength
end

