-- ==== Sys2Proof/Laws/Step.lean ====
section
/-! SUPPORT. What the fetch and a step can do, said once. -/

namespace Sys2Proof.Machine

theorem fetch_of_ge {c : Params} {s : State} (h : memSize ≤ s.pc.toNat) :
    fetch c s = .error (.outOfBounds .mem s.pc.toNat) :=
  decodeFrom_noOpcode (memRead_of_ge h s)

/-- A fetched instruction: its opcode stands at `pc`, and LDI's operands after it. -/
theorem fetch_eq_ok {c : Params} {s : State} {i : Instr} (h : fetch c s = .ok i) :
    s.pc.toNat < memSize ∧ s.mem.read s.pc.toNat = i.opcode c ∧
      (i = .cmp ∨ i = .jmp ∨ i = .jeq ∨ i = .jne ∨
        (s.pc.toNat + 2 < memSize ∧
          i = .ldi (s.mem.read (s.pc.toNat + 1)).toNat (s.mem.read (s.pc.toNat + 2)))) := by
  obtain ⟨h0, hi⟩ := decodeFrom_eq_ok h
  obtain ⟨hp, h0⟩ := memRead_eq_ok.1 h0
  refine ⟨hp, h0, ?_⟩
  rcases hi with hi | hi | hi | hi | ⟨r, v, rfl, h1, h2⟩
  · simp [hi]
  · simp [hi]
  · simp [hi]
  · simp [hi]
  · obtain ⟨-, h1⟩ := memRead_eq_ok.1 h1
    obtain ⟨h2', h2⟩ := memRead_eq_ok.1 h2
    simp [h1, h2, h2']

/-- A condition the fetch raises: the opcode's address, one of LDI's operand addresses, or an unknown opcode. -/
theorem fetch_eq_error {c : Params} {s : State} {cond : Condition} (h : fetch c s = .error cond) :
    (memSize ≤ s.pc.toNat ∧ cond = .outOfBounds .mem s.pc.toNat) ∨
    (s.pc.toNat < memSize ∧ memSize ≤ s.pc.toNat + 2 ∧ s.mem.read s.pc.toNat = c.opcLdi ∧
      cond = .outOfBounds .mem memSize) ∨
    (s.pc.toNat < memSize ∧ s.mem.read s.pc.toNat ∉ c.opcodes ∧
      cond = .unknownOpcode (s.mem.read s.pc.toNat) s.pc.toNat) := by
  rcases decodeFrom_eq_error h with h0 | ⟨h0, h1⟩ | ⟨op, h0, hop, he⟩
  · exact .inl (memRead_eq_error.1 h0)
  · obtain ⟨hp, h0⟩ := memRead_eq_ok.1 h0
    refine .inr (.inl ⟨hp, ?_⟩)
    simp only [memRead_eq_ok, memRead_eq_error] at h1
    rcases h1 with ⟨h1, rfl⟩ | ⟨r, ⟨h1, -⟩, h2, rfl⟩
    · refine ⟨by omega, h0, ?_⟩
      congr 1; simp only [memSize] at hp h1 ⊢; omega
    · refine ⟨by omega, h0, ?_⟩
      congr 1; simp only [memSize] at hp h1 h2 ⊢; omega
  · obtain ⟨hp, h0⟩ := memRead_eq_ok.1 h0
    exact .inr (.inr ⟨hp, h0 ▸ hop, by rw [he]; simp only [Nat.add_zero] at h0; rw [h0]⟩)

theorem stepWith_halted {c : Params} {s : State} {cond : Condition} (h : s.fault = some cond) :
    stepWith c s = .fault (.halted cond) := by
  simp [stepWith, h]

theorem stepWith_of_fetch_ok {c : Params} {s : State} {i : Instr} (hf : s.fault = none) (h : fetch c s = .ok i) :
    stepWith c s = exec i s := by
  simp [stepWith, hf, h]

theorem stepWith_of_fetch_error {c : Params} {s : State} {cond : Condition} (hf : s.fault = none)
    (h : fetch c s = .error cond) : stepWith c s = .next (raise cond s) := by
  simp [stepWith, hf, h]

/-- Everything a step with a next state can do: run the fetched instruction, or record the fetch's condition. -/
theorem stepWith_cases {c : Params} {s t : State} (h : stepWith c s = .next t) :
    s.fault = none ∧
      ((∃ i, fetch c s = .ok i ∧ exec i s = .next t) ∨ ∃ cond, fetch c s = .error cond ∧ t = raise cond s) := by
  cases hf : s.fault with
  | some cond => rw [stepWith_halted hf] at h; cases h
  | none =>
    refine ⟨rfl, ?_⟩
    cases hd : fetch c s with
    | ok i => exact .inl ⟨i, rfl, by rwa [stepWith_of_fetch_ok hf hd] at h⟩
    | error cond =>
      rw [stepWith_of_fetch_error hf hd, Host.Outcome.next.injEq] at h
      exact .inr ⟨cond, rfl, h.symm⟩

theorem step_eq_stepWith (s : State) : step s = stepWith Config.hardware.params s := rfl

/-- A word placed at `pc` keeps memory's canonical form. -/
theorem withFetchWord_wf {s : State} (h : s.mem.wf) (nbits w : Nat) : (s.withFetchWord nbits w).mem.wf :=
  storeBytes_wf h

theorem resetWith_wf (f : Flag) : (State.resetWith f).mem.wf := Memory.wf_nil

/-- A launch state's memory is in its canonical form. -/
theorem launchWith_wf {c : Params} {image : List Byte} {s : State} (h : launchWith c image = .ok s) : s.mem.wf := by
  unfold launchWith at h
  split at h
  · next hl =>
    rw [← Except.ok.inj h]
    exact placeImage_wf (resetWith_wf _) (by omega)
  · cases h

end Sys2Proof.Machine
end

