-- ==== Sys2Proof/Tests/Slice0.lean ====
section
/-! SUPPORT. Tests: the well-formedness smoke test, encodings written out bit by bit, the spec's own test vectors
(95_test_vectors.md), and for every statement with hypotheses a state that meets them. -/

namespace Sys2Proof.Tests

open Sys2Proof Sys2Proof.Machine

/-- A running core with the given memory, registers, program counter and flag register. -/
def running (mem : Memory) (x : Vector Word nregs) (pc : Pc) (fl : Flag) : State :=
  { mem := mem, x := x, pc := pc, fl := fl, fault := none }

/-- All registers 0. -/
def zeros : Vector Word nregs := #v[0#8, 0#8, 0#8, 0#8, 0#8, 0#8, 0#8, 0#8]

/-- The next state of an outcome, if it has one. -/
def nextOf : Result → Option State
  | .next t => some t
  | .fault _ => none
  | .refused _ => none

/-! ## Well-formedness: the one check refuses an index that is no byte (R43) -/

theorem test_wf_refuses_wide_index : (Instr.ldi 256 0#8).wf = false := by decide
theorem test_wf_accepts_largest_index : (Instr.ldi 255 0#8).wf = true := by decide

/-! ## Encodings, each word written out from R43 and R45 -/

theorem test_decode_ldi : decode [0b10000010#8, 0b00000001#8, 0b00000101#8] = .ok (.ldi 1 5#8) := by decide
theorem test_decode_cmp : decode [0b10100111#8, 0b11111111#8, 0b11111111#8] = .ok .cmp := by decide
theorem test_decode_jmp : decode [0b01010100#8, 0b00000111#8] = .ok .jmp := by decide
theorem test_decode_jeq : decode [0b01010101#8, 0b10000010#8] = .ok .jeq := by decide
theorem test_decode_jne : decode [0b01010110#8, 0b00000000#8] = .ok .jne := by decide
theorem test_decode_cmp_in_last_cell : decode [0b10100111#8] = .ok .cmp := by decide
theorem test_decode_not_halt : decode [0b00000001#8] = .error (.unknownOpcode 1#8) := by decide
theorem test_decode_ldi_cut_short : decode [0b10000010#8] = .error (.missingByte 1) := by decide
theorem test_encode_ldi : encode (.ldi 7 255#8) = [0x82#8, 0x07#8, 0xFF#8] := by decide

/-- The opcode table numbers bit 0 as the first byte's lowest: bytes 82 01 05 are the word 0x050182. -/
theorem test_table_word_ldi : decodeTableWord 24 0x050182 = some (.ldi 1 5#8) := by decide
theorem test_table_word_short : decodeTableWord 8 0x050182 = some (.ldi 0 0#8) := by decide
theorem test_table_word_unknown : decodeTableWord 8 0x00 = none := by decide

/-! ## The spec's test vectors, one step each -/

/-- V-L3. -/
theorem test_ldi_largest :
    nextOf (step (running [(0, 0x82#8), (1, 0x07#8), (2, 0xFF#8)] zeros 0#9 .none)) =
      some (running [(0, 0x82#8), (1, 0x07#8), (2, 0xFF#8)]
        #v[0#8, 0#8, 0#8, 0#8, 0#8, 0#8, 0#8, 255#8] 3#9 .none) := by decide

/-- V-L11: the memory check comes before the register check. -/
theorem test_ldi_order_of_checks :
    (nextOf (step (running [(98, 0x82#8), (99, 0x09#8)] zeros 98#9 .equal))).map State.fault =
      some (some (.outOfBounds .mem 100)) := by decide

/-- V-C5: the pad bytes select nothing. -/
theorem test_cmp_ignores_pads :
    (nextOf (step (running [(0, 0xA7#8), (1, 0x02#8), (2, 0x03#8)]
      #v[1#8, 1#8, 7#8, 9#8, 0#8, 0#8, 0#8, 0#8] 0#9 .none))).map (fun t => (t.fl, t.pc)) =
      some (.equal, 3#9) := by decide

/-- V-A7 as a step in the last cell (V-C9): unsigned, and complete although its pads would lie outside memory. -/
theorem test_cmp_unsigned_in_last_cell :
    (nextOf (step (running [(99, 0xA7#8)] #v[127#8, 128#8, 0#8, 0#8, 0#8, 0#8, 0#8, 0#8] 99#9 .equal))).map
      (fun t => (t.fl, t.pc, t.fault)) = some (.lessThan, 102#9, none) := by decide

/-- V-J4: no wrap at 256. -/
theorem test_jmp_beyond_memory :
    (nextOf (step (running [(3, 0x54#8)] #v[0#8, 0#8, 0#8, 0#8, 255#8, 0#8, 0#8, 0#8] 3#9 .equal))).map
      (fun t => (t.pc, t.fault)) = some (257#9, none) := by decide

/-- V-J8: a register condition, although the pad address too is outside memory. -/
theorem test_jmp_too_high :
    (nextOf (step (running [(99, 0x54#8)] zeros 99#9 .equal))).map (fun t => (t.pc, t.fault)) =
      some (99#9, some (.outOfBounds .reg 100)) := by decide

/-- V-E1. -/
theorem test_jeq_taken :
    (nextOf (step (running [(6, 0x55#8)] #v[0#8, 0#8, 0#8, 0#8, 0#8, 0#8, 0#8, 10#8] 6#9 .equal))).map State.pc =
      some 12#9 := by decide

/-- V-E6: the operand is read although the jump would not be taken. -/
theorem test_jeq_not_taken_still_raises :
    (nextOf (step (running [(7, 0x55#8)] zeros 7#9 .lessThan))).map State.fault =
      some (some (.outOfBounds .reg 8)) := by decide

/-- V-N1. -/
theorem test_jne_taken :
    (nextOf (step (running [(6, 0x56#8)] zeros 6#9 .none))).map State.pc = some 2#9 := by decide

/-- V-N3: not taken on "less", although the operands were unequal. -/
theorem test_jne_not_taken_on_less :
    (nextOf (step (running [(6, 0x56#8)] zeros 6#9 .lessThan))).map State.pc = some 8#9 := by decide

/-- V-F1: the empty image. -/
theorem test_empty_image :
    nextOf (step State.reset) = some { State.reset with fault := some (.unknownOpcode 0#8 0) } := by decide

/-- V-F5: one bit away from LDI. -/
theorem test_whole_byte_is_matched :
    (nextOf (step (running [(0, 0x83#8)] zeros 0#9 .equal))).map State.fault =
      some (some (.unknownOpcode 0x83#8 0)) := by decide

/-- V-F6. -/
theorem test_fetch_beyond_memory :
    (nextOf (step (running [] zeros 100#9 .equal))).map statusPort =
      some { halted := true, cause := 2#2, infoSpace := 0#1, infoIndex := 100#9, infoOpcode := 0#8 } := by decide

/-- V-R2: three loads. -/
theorem test_loads :
    System.afterAll Config.hardware.params [.load 0 0x82#8, .load 1 0#8, .load 2 3#8] { phase := .loading, core := State.reset }
      = some { phase := .loading, core := { State.reset with mem := [(0, 0x82#8), (2, 3#8)] } } := by decide

/-- R50's example file. -/
theorem test_text :
    loadText ["10000010 # LDI".toList, [], "00000000 # register 0".toList, "00000011 # value 3".toList] =
      .ok { State.reset with mem := [(0, 0x82#8), (2, 3#8)] } := by decide

theorem test_text_malformed : loadText ["1000001x".toList] = .error (.malformedInstruction 0) := by decide

/-- The bytes 82 00 03 placed at `pc` after reset run as LDI (V-L1). -/
theorem test_with_fetch_word :
    (nextOf (step (State.reset.withFetchWord 24 0x030082))).map (fun t => (t.x, t.pc)) =
      some (#v[3#8, 0#8, 0#8, 0#8, 0#8, 0#8, 0#8, 0#8], 3#9) := by decide

/-! ## Witnesses: for each statement with hypotheses, a state and operands that meet them, clause by clause -/

/-- The hardware's record, whose last cell and largest register value are the boundary cases. -/
theorem witness_ParametersMeetTheirConstraints :
    Config.hardware.Valid ∧ 99 < Config.hardware.memSize ∧ regRead 7 (running [] zeros 0#9 .equal) = .ok 0#8 ∧
      memRead 99 (running [] zeros 0#9 .equal) = .ok 0#8 := by decide

theorem witness_BootSequenceReachesTheLaunchState :
    (List.replicate 100 1#8 : List Byte).length ≤ memSize ∧ 99 < (List.replicate 100 1#8 : List Byte).length ∧
      ([] : List Byte).length ≤ memSize ∧ ([] : List Byte).length ≤ 99 ∧ 99 < memSize ∧ 7 < nregs ∧ 0#8 ∉ Config.hardware.params.opcodes := by
  decide

theorem witness_ImageLongerThanMemoryIsRefused : memSize < (List.replicate 101 1#8 : List Byte).length := by decide

theorem witness_LoadWritesOneCellBeforeRunOnly :
    Memory.wf [(0, 1#8), (99, 2#8)] ∧ 99 < memSize ∧ memSize ≤ 100 ∧ 98 ≠ 99 := by decide

theorem witness_LoadingProgramTextLoadsItsBytes :
    TextOf [[' '], literalOf 0x82#8 ++ [' ', '#', 'x'], literalOf 3#8 ++ []] [0x82#8, 3#8] :=
  .blank (by decide) (.byte (by decide) (.byte (by decide) .done))

theorem witness_StatusPortShowsTheFaultLatch :
    (∃ s : State, s.fault = none) ∧ (∃ s : State, s.fault = some (.unknownOpcode 0#8 511)) ∧
      (∃ s : State, s.fault = some (.outOfBounds .mem 511)) ∧ (∃ s : State, s.fault = some (.outOfBounds .reg 511)) ∧
      (∃ s : State, s.fault = some .unsupportedAluOperation) ∧ 511 < 512 :=
  ⟨⟨State.reset, rfl⟩, ⟨raise _ State.reset, rfl⟩, ⟨raise _ State.reset, rfl⟩, ⟨raise _ State.reset, rfl⟩,
    ⟨raise _ State.reset, rfl⟩, by decide⟩

theorem witness_MemoryWithEqualReadsIsEqual :
    ∃ m n : Memory, m.wf ∧ n.wf ∧ (∀ a, m.read a = n.read a) ∧ m ≠ [] :=
  ⟨[(99, 1#8)], Memory.write [(99, 1#8), ] 0 0#8, by decide, by decide, fun _ => rfl, by decide⟩

theorem witness_MemoryIsConstantDuringARun :
    ∃ t, Host.Core.run Sys2Proof.core 2 (running [(0, 0x82#8), (3, 0xA7#8)] zeros 0#9 .none) = .next t := ⟨_, rfl⟩

theorem witness_UnsupportedAluOperationIsNeverRaised :
    ∃ t, stepWith Config.hardware.params (running [(0, 0xA7#8)] zeros 0#9 .none) = .next t := ⟨_, rfl⟩

theorem witness_LdiWritesItsRegister : 7 < nregs ∧ (running [] zeros 99#9 .equal).pc.toNat < memSize := by decide

theorem witness_LdiRaisesOutsideTheRegisterFile : nregs ≤ 8 ∧ nregs ≤ 255 := by decide

/-- A core at the last cell, at an address of 97, and the three relations of the operands. -/
theorem witness_CmpComparesRegisters0And1 :
    Config.hardware.params.Distinct ∧ (running [] zeros 99#9 .equal).pc.toNat < memSize ∧
      (running [] zeros 99#9 .equal).fault = none ∧ 97 ≤ (running [] zeros 97#9 .equal).pc.toNat ∧
      (0#8).toNat = (0#8).toNat ∧ (0#8).toNat < (255#8).toNat := by decide

theorem witness_JmpGoesToItsRegisterPlus2 :
    Config.hardware.params.Distinct ∧ (running [] zeros 6#9 .equal).pc.toNat ≤ 6 ∧ (running [] zeros 6#9 .equal).fault = none ∧
      regRead 7 (running [] #v[0#8, 0#8, 0#8, 0#8, 0#8, 0#8, 0#8, 98#8] 6#9 .equal) = .ok 98#8 ∧
      98 ≤ (98#8).toNat ∧ 7 ≤ (running [] zeros 7#9 .equal).pc.toNat := by decide

theorem witness_JeqJumpsWhenEqual :
    Config.hardware.params.Distinct ∧ (running [] zeros 6#9 .equal).pc.toNat ≤ 6 ∧ (running [] zeros 6#9 .equal).fl = .equal ∧
      (running [] zeros 6#9 .lessThan).fl ≠ .equal ∧ 7 ≤ (running [] zeros 7#9 .equal).pc.toNat := by decide

theorem witness_JneJumpsWhenNone :
    Config.hardware.params.Distinct ∧ (running [] zeros 6#9 .none).pc.toNat ≤ 6 ∧ (running [] zeros 6#9 .none).fl = .none ∧
      (running [] zeros 6#9 .lessThan).fl ≠ .none ∧ 7 ≤ (running [] zeros 7#9 .none).pc.toNat := by decide

theorem witness_InstructionsChangeOnlyTheirDestination :
    (∃ t, exec (.ldi 7 1#8) (running [] zeros 0#9 .equal) = .next t) ∧ (∀ r v, Instr.ldi 7 1#8 = .ldi r v → 6 ≠ r) ∧
      Instr.ldi 7 1#8 ≠ .cmp :=
  ⟨⟨_, rfl⟩, fun r v h => by cases h; decide, by decide⟩

theorem witness_CmpThenConditionalJumpFollowsItsTable : (running [] zeros 3#9 .equal).pc.toNat ≤ 3 := by decide

/-- A CMP in the last cell and an LDI at the last place it fits. -/
theorem witness_StepRunsTheDecodedInstruction :
    (running [(99, 0xA7#8)] zeros 99#9 .equal).fault = none ∧
      decode (bytesAtPc (running [(99, 0xA7#8)] zeros 99#9 .equal)) = .ok .cmp ∧
      decode (bytesAtPc (running [(97, 0x82#8), (98, 0x07#8)] zeros 97#9 .equal)) = .ok (.ldi 7 0#8) := by decide

theorem witness_StepExistsExactlyWhileNotHalted :
    State.reset.fault = none ∧ (raise .unsupportedAluOperation State.reset).fault = some .unsupportedAluOperation := by
  decide

/-- An LDI at 99, at 98, and at 97 with the register bytes 8 and 7. -/
theorem witness_LdiStepChecksThenWrites :
    memRead 99 (running [(99, 0x82#8)] zeros 99#9 .equal) = .ok Config.hardware.params.opcLdi ∧ memSize ≤ 99 + 1 ∧
      memRead 99 (running [(98, 0x82#8), (99, 0x09#8)] zeros 98#9 .equal) = .ok 9#8 ∧ memSize ≤ 98 + 2 ∧
      memRead 98 (running [(97, 0x82#8), (98, 0x08#8)] zeros 97#9 .equal) = .ok 8#8 ∧ nregs ≤ (8#8).toNat ∧
      memRead 99 (running [(97, 0x82#8), (98, 0x08#8)] zeros 97#9 .equal) = .ok 0#8 ∧ (7#8).toNat < nregs := by decide

theorem witness_LdiStepMutatesNoOtherState :
    let s := running [(97, 0x82#8), (98, 0x07#8), (99, 0xFF#8)] zeros 97#9 .equal
    s.fault = none ∧ s.pc.toNat + 2 < memSize ∧ memRead s.pc.toNat s = .ok Config.hardware.params.opcLdi ∧
      memRead (s.pc.toNat + 1) s = .ok 7#8 ∧ (7#8).toNat ≤ 7 ∧ memRead (s.pc.toNat + 2) s = .ok 255#8 := by decide

theorem witness_UnknownOpcodeIsRaisedExactlyByIllegalBytes :
    (running [] zeros 99#9 .equal).fault = none ∧ memRead 99 (running [] zeros 99#9 .equal) = .ok 0#8 ∧
      0#8 ∉ Config.hardware.params.opcodes := by decide

/-- The three sites: a fetch at 100, an LDI at 99 and one at 98. -/
theorem witness_MemoryOutOfBoundsIsRaisedExactlyAtItsSites :
    memSize ≤ (running [] zeros 100#9 .equal).pc.toNat ∧
      memRead 99 (running [(99, 0x82#8)] zeros 99#9 .equal) = .ok Config.hardware.params.opcLdi ∧
      memRead 98 (running [(98, 0x82#8)] zeros 98#9 .equal) = .ok Config.hardware.params.opcLdi ∧
      (nextOf (stepWith Config.hardware.params (running [(98, 0x82#8)] zeros 98#9 .equal))).map State.fault =
        some (some (.outOfBounds .mem 100)) := by decide

/-- The two sites: an LDI at 97 with the register byte 8, and a not taken JEQ at 7. -/
theorem witness_RegisterOutOfBoundsIsRaisedExactlyAtItsSites :
    Config.hardware.params.Distinct ∧
      memRead 97 (running [(97, 0x82#8), (98, 8#8)] zeros 97#9 .equal) = .ok Config.hardware.params.opcLdi ∧
      memRead 98 (running [(97, 0x82#8), (98, 8#8)] zeros 97#9 .equal) = .ok 8#8 ∧
      memRead 7 (running [(7, 0x55#8)] zeros 7#9 .none) = .ok Config.hardware.params.opcJeq ∧
      (nextOf (stepWith Config.hardware.params (running [(7, 0x55#8)] zeros 7#9 .none))).map State.fault =
        some (some (.outOfBounds .reg 8)) := by decide

theorem witness_RaisesArePrecise :
    ∃ t, stepWith Config.hardware.params State.reset = .next t ∧ t.fault = some (.unknownOpcode 0#8 0) := ⟨_, rfl, rfl⟩

/-- A halted core whose interface still loads, and one that runs. -/
theorem witness_FaultLatchIsClearedByResetOnly :
    let s := raise .unsupportedAluOperation State.reset
    Event.reset ∉ [Event.load 0 1#8, Event.run] ∧ s.fault = some .unsupportedAluOperation ∧
      (System.afterAll Config.hardware.params [.load 0 1#8, .run] { phase := .loading, core := s }).isSome ∧
      (System.afterAll Config.hardware.params [] { phase := .running, core := s }).isSome := by decide

theorem witness_OnlyCmpWritesTheFlagRegister :
    ∃ t, stepWith Config.hardware.params (running [(0, 0xA7#8)] zeros 0#9 .none) = .next t ∧ t.fl ≠ .none :=
  ⟨_, rfl, by decide⟩

theorem witness_OnlyLdiWritesARegister :
    let s := running [(0, 0x82#8), (2, 5#8)] zeros 0#9 .none
    ∃ t, stepWith Config.hardware.params s = .next t ∧ regRead 0 t ≠ regRead 0 s := ⟨_, rfl, by decide⟩

theorem witness_OnlyConditionalJumpsReadTheFlagRegister :
    (running [(0, 0xA7#8)] zeros 0#9 .none).fault = none ∧
      ∀ op, memRead 0 (running [(0, 0xA7#8)] zeros 0#9 .none) = .ok op →
        op ≠ Config.hardware.params.opcJeq ∧ op ≠ Config.hardware.params.opcJne :=
  ⟨rfl, fun op h => by
    have h : 0xA7#8 = op := Except.ok.inj h
    subst h
    decide⟩

theorem witness_PadBytesAndOtherMemoryAreIgnored :
    let s := running [(6, 0x54#8)] zeros 6#9 .none
    let m : Memory := [(6, 0x54#8), (7, 9#8)]
    Config.hardware.params.Distinct ∧ s.fault = none ∧ s.pc.toNat < memSize ∧
      s.mem.read s.pc.toNat ∈ [Config.hardware.params.opcCmp, Config.hardware.params.opcJmp, Config.hardware.params.opcJeq,
        Config.hardware.params.opcJne] ∧ m.read s.pc.toNat = s.mem.read s.pc.toNat := by decide

theorem witness_BackwardTransferComesFromAJumpBelow7 :
    ∃ t, stepWith Config.hardware.params (running [(6, 0x54#8)] zeros 6#9 .none) = .next t ∧ t.pc.toNat < 6 :=
  ⟨_, rfl, by decide⟩

theorem witness_StepIsTheStepFunctionOfItsPage : State.reset.fault = none := rfl

/-- A running state in the middle of memory that meets the invariant and has a next state. -/
theorem witness_InvariantIsKeptByEveryStep :
    let s := running [(6, 0x56#8)] #v[0#8, 0#8, 0#8, 0#8, 0#8, 0#8, 0#8, 255#8] 6#9 .none
    Inv Config.hardware.params s ∧ ∃ t, stepWith Config.hardware.params s = .next t :=
  ⟨{ mem_wf := by decide, pc_le := by decide, fl_ne := by decide, recorded := by intro _ h; cases h }, ⟨_, rfl⟩⟩

theorem witness_ReachableStatesMeetTheInvariant :
    Config.hardware.params.flReset ≠ .greaterThan ∧
      ∃ s t, launch [0x82#8, 7#8, 255#8] = .ok s ∧ step s = .next t ∧ Reachable Config.hardware.params t :=
  ⟨by decide, _, _, rfl, rfl, .step (.launch (image := [0x82#8, 7#8, 255#8]) rfl) rfl⟩

theorem witness_DecodeOfEncodeIsTheInstruction :
    Config.hardware.params.Distinct ∧ (Instr.ldi 255 255#8).wf = true := by decide

theorem witness_DecodedBytesAreTheInstructionsEncoding :
    decodeWith Config.hardware.params [0xA7#8, 1#8] = .ok .cmp := by decide

end Sys2Proof.Tests
end

section
/-! The configuration record (R5): what its constraints give for the program counter (R17), and the widths of the
state's types. -/

namespace Sys2Proof

/-- R17: the constraint on `PCW` covers the sequential program counter of the longest instruction, from any cell. -/
theorem Config.Valid.pc_add_three_lt {c : Config} (h : c.Valid) {p : Nat} (hp : p < c.memSize) :
    p + 3 < 2 ^ c.pcw := by
  obtain ⟨-, hpcw, -⟩ := h
  have hmem : c.memSize + 2 < 2 ^ c.pcw := (le_max_left ..).trans_lt hpcw
  omega

/-- R17: the constraint on `PCW` covers the jump target of every register value. -/
theorem Config.Valid.target_add_two_lt {c : Config} (h : c.Valid) (t : BitVec c.xlen) : t.toNat + 2 < 2 ^ c.pcw := by
  obtain ⟨-, hpcw, -⟩ := h
  have htarget : 2 ^ c.xlen + 1 < 2 ^ c.pcw := (le_max_right ..).trans_lt hpcw
  have ht : t.toNat < 2 ^ c.xlen := t.isLt
  omega

theorem Config.hardware_valid : Config.hardware.Valid := by decide

/-- The state's elements have the numbers and widths of the record (R9): their types say so, but for the range of the
addresses, which is the check of `memRead`. -/
theorem Machine.State.widths_of_hardware (s : Machine.State) :
    s.pc.toNat < 2 ^ Config.hardware.pcw ∧ s.x.size = Config.hardware.nregs ∧
      (∀ i v, Machine.regRead i s = .ok v → v.toNat < 2 ^ Config.hardware.xlen) ∧
      (∀ a b, Machine.memRead a s = .ok b → a < Config.hardware.memSize ∧ b.toNat < 2 ^ Config.hardware.cellBits) ∧
      (Machine.flagCode s.fl).toNat < 2 ^ Config.hardware.flw :=
  ⟨s.pc.isLt, rfl, fun _ v _ => v.isLt, fun _ b h => ⟨(Machine.memRead_eq_ok.mp h).1, b.isLt⟩,
    (Machine.flagCode s.fl).isLt⟩

/-- Settles O42: the table's values by evaluation, the widths by the state's types, and the room in the program counter
by the constraint on `PCW`. -/
theorem parametersMeetTheirConstraints : Obligations.ParametersMeetTheirConstraints := by
  refine ⟨?values, Machine.State.widths_of_hardware, Config.hardware_valid, ?room⟩
  case values => decide
  case room => exact fun c hc => ⟨fun p hp => hc.pc_add_three_lt hp, hc.target_add_two_lt⟩

end Sys2Proof
end

section
/-! The accessors over the state's updates: what the checked reads return after each of them. -/

namespace Sys2Proof.Machine

section reads
variable (k n : Nat) (f : Flag) (c : Condition) (s : State)
@[simp] theorem memRead_setPc : memRead k (setPc n s) = memRead k s := rfl
@[simp] theorem regRead_setPc : regRead k (setPc n s) = regRead k s := rfl
@[simp] theorem memRead_setFlag : memRead k (setFlag f s) = memRead k s := rfl
@[simp] theorem regRead_setFlag : regRead k (setFlag f s) = regRead k s := rfl
@[simp] theorem memRead_raise : memRead k (raise c s) = memRead k s := rfl
@[simp] theorem regRead_raise : regRead k (raise c s) = regRead k s := rfl
end reads

/-- R29, R34: a load changes what one address reads. -/
theorem memRead_setMem {s : State} (hs : s.mem.wf) {a : Nat} (ha : a < memSize) (b : Byte) (k : Nat) :
    memRead k (setMem a b s) = if k = a then .ok b else memRead k s := by
  by_cases hk : k < memSize
  · rw [memRead_of_lt hk, memRead_of_lt hk, setMem_mem, Memory.read_write hs.1]
    split <;> rfl
  · rw [memRead_of_ge (by omega), memRead_of_ge (by omega), if_neg (by omega)]

end Sys2Proof.Machine
end

section
/-! The frame of an instruction (R12, R19, R29, R58): what each piece of state can be after `exec`. -/

namespace Sys2Proof.Machine

variable {i : Instr} {s t : State}

/-- R29: no instruction writes memory. -/
theorem exec_mem (h : exec i s = .next t) : t.mem = s.mem := by
  rcases exec_cases h with ⟨r, v, hr, -, rfl⟩ | ⟨-, rfl⟩ | ⟨-, -, rfl⟩ | ⟨r, v, -, -, rfl⟩ | ⟨-, -, rfl⟩ <;> simp

/-- R12: only LDI writes a register, the one it names. -/
theorem exec_regRead (h : exec i s = .next t) {k : Nat} (hk : ∀ r v, i = .ldi r v → k ≠ r) :
    regRead k t = regRead k s := by
  rcases exec_cases h with ⟨r, v, hr, hi, rfl⟩ | ⟨-, rfl⟩ | ⟨-, -, rfl⟩ | ⟨r, v, -, -, rfl⟩ | ⟨-, -, rfl⟩
  · rw [regRead_setPc, regRead_setReg, if_neg (hk r v hi)]
  all_goals simp

/-- R19: only CMP writes the flag register. -/
theorem exec_fl (h : exec i s = .next t) (hi : i ≠ .cmp) : t.fl = s.fl := by
  rcases exec_cases h with ⟨r, v, hr, -, rfl⟩ | ⟨hc, -⟩ | ⟨-, -, rfl⟩ | ⟨r, v, -, -, rfl⟩ | ⟨-, -, rfl⟩
  · simp
  · exact absurd hc hi
  all_goals simp

/-- R20: an instruction leaves the flag register or puts a comparison's result in it. -/
theorem exec_fl_ne_greaterThan (h : exec i s = .next t) (hs : s.fl ≠ .greaterThan) : t.fl ≠ .greaterThan := by
  by_cases hi : i = .cmp
  · subst hi
    rw [exec_cmp, Host.Outcome.next.injEq] at h
    subst h
    exact compareFlag_ne_greaterThan _ _
  · rwa [exec_fl h hi]

/-- R17: the program counter stays, moves on sequentially, or becomes a register's value plus 2. -/
theorem exec_pc_le (h : exec i s = .next t) (hp : s.pc.toNat < memSize) : t.pc.toNat ≤ 257 := by
  have hm := memSize_eq
  rcases exec_cases h with ⟨r, v, hr, -, rfl⟩ | ⟨-, rfl⟩ | ⟨-, h6, rfl⟩ | ⟨r, v, -, -, rfl⟩ | ⟨-, -, rfl⟩
  · rw [setPc_toNat (by omega)]; omega
  · rw [setPc_toNat (by omega)]; omega
  · have htgt := jumpTarget_lt (jumpReg s h6)
    rw [setPc_toNat (by split <;> omega)]
    split <;> omega
  · rw [raise_pc]; omega
  · rw [raise_pc]; omega

/-- R58, R85: an instruction leaves the latch alone, or its whole effect is to record a register index that is out of
range (R77): LDI's operand, or the number after a jump's address. -/
theorem exec_fault_or_raise (h : exec i s = .next t) :
    t.fault = s.fault ∨ ∃ r, nregs ≤ r ∧ ((∃ v, i = .ldi r v) ∨ r = s.pc.toNat + 1) ∧
      t = raise (.outOfBounds .reg r) s := by
  rcases exec_cases h with ⟨r, v, hr, -, rfl⟩ | ⟨-, rfl⟩ | ⟨-, -, rfl⟩ | ⟨r, v, hi, hr, ht⟩ | ⟨-, h7, ht⟩
  · exact .inl (by simp)
  · exact .inl (by simp)
  · exact .inl (by simp)
  · exact .inr ⟨r, hr, .inl ⟨v, hi⟩, ht⟩
  · exact .inr ⟨_, by have := nregs_eq; omega, .inr rfl, ht⟩

end Sys2Proof.Machine
end

section
/-! The invariant: every step keeps it, the state after reset meets it, and so does every reachable state. -/

namespace Sys2Proof.Machine

variable {c : Params} {s t : State} {cond : Condition}

/-- Whether a record is one of the state's own does not depend on the latch that holds it. -/
theorem recorded_raise (r : Condition) : Recorded c (raise r s) cond ↔ Recorded c s cond := by
  cases cond <;> rfl

/-- A core whose latch is clear meets the invariant by its first three clauses. -/
theorem Inv.of_running (hmem : s.mem.wf) (hpc : s.pc.toNat ≤ 257) (hfl : s.fl ≠ .greaterThan) (hs : s.fault = none) :
    Inv c s where
  mem_wf := hmem
  pc_le := hpc
  fl_ne := hfl
  recorded := fun cond h => by rw [hs] at h; cases h

/-- R85: raising a condition that the state has at its own `pc` keeps the invariant. -/
theorem raise_keeps_inv (h : Inv c s) (hc : Recorded c s cond) : Inv c (raise cond s) where
  mem_wf := h.mem_wf
  pc_le := h.pc_le
  fl_ne := h.fl_ne
  recorded := fun r hr => by
    rw [raise_fault, Option.some.injEq] at hr
    rwa [recorded_raise, ← hr]

/-- R75, R76: what the fetch raises is a record of the state: an address in the range of R22, or an illegal byte of
memory with its address. -/
theorem recorded_of_fetch_error (hs : Inv c s) (h : fetch c s = .error cond) : Recorded c s cond := by
  rcases fetch_eq_error h with ⟨hp, rfl⟩ | ⟨-, -, -, rfl⟩ | ⟨hp, hop, rfl⟩
  · exact ⟨hp, hs.pc_le⟩
  · exact ⟨le_rfl, by decide⟩
  · exact ⟨rfl, hp, rfl, hop⟩

/-- R77: a register index recorded by a fetched instruction is LDI's operand byte or at most 100, in the range of
R22. -/
theorem fetched_exec_fault_or_raise {i : Instr} (hi : fetch c s = .ok i) (h : exec i s = .next t) :
    t.fault = s.fault ∨ ∃ cond, Recorded c s cond ∧ t = raise cond s := by
  obtain ⟨hp, -, -⟩ := fetch_eq_ok hi
  rcases exec_fault_or_raise h with hf | ⟨r, hr, hsite, rfl⟩
  · exact .inl hf
  · have hle : r ≤ 255 := by
      rcases hsite with ⟨v, rfl⟩ | rfl
      · have hwf : r < 256 := of_decide_eq_true (decodeFrom_wf hi)
        omega
      · have hm := memSize_eq
        omega
    exact .inr ⟨.outOfBounds .reg r, ⟨hr, hle⟩, rfl⟩

/-- Running a fetched instruction keeps the invariant. -/
theorem exec_keeps_inv {i : Instr} (hs : Inv c s) (hrun : s.fault = none) (hi : fetch c s = .ok i)
    (h : exec i s = .next t) : Inv c t := by
  rcases fetched_exec_fault_or_raise hi h with hf | ⟨cond, hrec, rfl⟩
  · have hmem : t.mem.wf := by rw [exec_mem h]; exact hs.mem_wf
    exact .of_running hmem (exec_pc_le h (fetch_eq_ok hi).1) (exec_fl_ne_greaterThan h hs.fl_ne) (hf.trans hrun)
  · exact raise_keeps_inv hs hrec

theorem stepWith_keeps_inv (hs : Inv c s) (h : stepWith c s = .next t) : Inv c t := by
  obtain ⟨hrun, ⟨i, hi, hexec⟩ | ⟨cond, herr, rfl⟩⟩ := stepWith_cases h
  · exact exec_keeps_inv hs hrun hi hexec
  · exact raise_keeps_inv hs (recorded_of_fetch_error hs herr)

theorem inv_resetWith {f : Flag} (hf : f ≠ .greaterThan) : Inv c (State.resetWith f) :=
  .of_running (resetWith_wf f) (by simp) hf rfl

theorem eq_placeImage_of_launchWith {image : List Byte} (h : launchWith c image = .ok s) :
    s = placeImage image 0 (State.resetWith c.flReset) := by
  unfold launchWith at h
  split at h
  · exact (Except.ok.inj h).symm
  · cases h

/-- R96: the launch state of an image differs from the reset state in memory only, which stays canonical. -/
theorem inv_launchWith {image : List Byte} (hf : c.flReset ≠ .greaterThan) (h : launchWith c image = .ok s) :
    Inv c s := by
  have hmem : s.mem.wf := launchWith_wf h
  obtain rfl := eq_placeImage_of_launchWith h
  obtain ⟨-, hpc, hfl, hfault⟩ := placeImage_fields image 0 (State.resetWith c.flReset)
  exact .of_running hmem (by simp [hpc]) (by simpa [hfl] using hf) (by simp [hfault])

end Sys2Proof.Machine

namespace Sys2Proof
open Machine

/-- Settles O35: a step either raises a record of its own state, which adds nothing but that record, or runs an
instruction to its end, which keeps memory, writes a `pc` of at most 257 and a comparison's result. -/
theorem invariantIsKeptByEveryStep : Obligations.InvariantIsKeptByEveryStep :=
  fun _ _ _ => stepWith_keeps_inv

/-- Settles O36: the reset value of `FL` on this hardware is EQUAL. -/
theorem resetStateMeetsTheInvariant : Obligations.ResetStateMeetsTheInvariant :=
  inv_resetWith (by decide)

/-- Settles O37, by induction on the run: the launch state meets the invariant and every step keeps it. -/
theorem reachableStatesMeetTheInvariant : Obligations.ReachableStatesMeetTheInvariant := by
  intro c s hf hs
  induction hs with
  | launch h => exact inv_launchWith hf h
  | step _ h ih => exact stepWith_keeps_inv ih h

end Sys2Proof
end

section
/-! Which instruction writes and which reads the registers and the flag register (R12, R19). -/

namespace Sys2Proof.Machine

variable {c : Params} {s t : State}

/-- The opcode of a fetched instruction is the byte at `pc`. -/
theorem memRead_pc_of_fetch {i : Instr} (h : fetch c s = .ok i) : memRead s.pc.toNat s = .ok (i.opcode c) := by
  obtain ⟨hp, hop, -⟩ := fetch_eq_ok h
  exact memRead_eq_ok.mpr ⟨hp, hop⟩

/-- R46: the operands of a fetched LDI are the two bytes after `pc`. -/
theorem memRead_operands_of_fetch_ldi {r : Nat} {v : Byte} (h : fetch c s = .ok (.ldi r v)) :
    (∃ b, memRead (s.pc.toNat + 1) s = .ok b ∧ r = b.toNat) ∧ memRead (s.pc.toNat + 2) s = .ok v := by
  obtain ⟨-, hi | hi | hi | hi | ⟨b, w, hi, h1, h2⟩⟩ := decodeFrom_eq_ok h <;> cases hi
  exact ⟨⟨b, h1, rfl⟩, h2⟩

/-- R12: an instruction that changes what a register reads is an LDI of that register, which then reads the LDI's
value. -/
theorem ldi_of_exec_regRead_ne {i : Instr} {k : Nat} (h : exec i s = .next t) (hne : regRead k t ≠ regRead k s) :
    ∃ v, i = .ldi k v ∧ regRead k t = .ok v := by
  obtain ⟨v, rfl⟩ : ∃ v, i = .ldi k v := by
    by_contra! hi
    exact hne (exec_regRead h fun r v hrv hk => hi v (hk ▸ hrv))
  refine ⟨v, rfl, ?_⟩
  by_cases hk : k < nregs
  · rw [exec_ldi_of_lt hk, Host.Outcome.next.injEq] at h
    rw [← h, regRead_setPc, regRead_setReg, if_pos rfl]
  · rw [exec_ldi_of_ge (by omega), Host.Outcome.next.injEq] at h
    exact absurd (by rw [← h, regRead_raise]) hne

/-- R19: another value of the flag register changes nothing for LDI, CMP and JMP but the flag register itself, and that
only where the instruction leaves it. -/
theorem exec_setFlag {i : Instr} (hjeq : i ≠ .jeq) (hjne : i ≠ .jne) (f : Flag) (h : exec i s = .next t) :
    exec i (setFlag f s) = .next t ∨ (exec i (setFlag f s) = .next (setFlag f t) ∧ t.fl = s.fl) := by
  rcases exec_cases h with ⟨r, v, hr, rfl, rfl⟩ | ⟨rfl, rfl⟩ | ⟨hj, hp, rfl⟩ | ⟨r, v, rfl, hr, rfl⟩ | ⟨hj, hp, rfl⟩
  · exact .inr ⟨exec_ldi_of_lt hr v _, rfl⟩
  · exact .inl (exec_cmp _)
  · obtain rfl : i = .jmp := by simpa [hjeq, hjne] using hj
    exact .inr ⟨jumpIf_of_le (s := setFlag f s) hp true, rfl⟩
  · exact .inr ⟨exec_ldi_of_ge hr v _, rfl⟩
  · obtain rfl : i = .jmp := by simpa [hjeq, hjne] using hj
    exact .inr ⟨jumpIf_of_ge (s := setFlag f s) hp true, rfl⟩

/-- R55: the fetch does not look at the flag register. -/
theorem fetch_setFlag (f : Flag) : fetch c (setFlag f s) = fetch c s := rfl

/-- R19: the same for a step, whatever instruction it fetches or condition its fetch raises. -/
theorem stepWith_setFlag (hop : ∀ op, memRead s.pc.toNat s = .ok op → op ≠ c.opcJeq ∧ op ≠ c.opcJne) (f : Flag)
    (h : stepWith c s = .next t) :
    stepWith c (setFlag f s) = .next t ∨ (stepWith c (setFlag f s) = .next (setFlag f t) ∧ t.fl = s.fl) := by
  obtain ⟨hrun, ⟨i, hi, hexec⟩ | ⟨cond, herr, rfl⟩⟩ := stepWith_cases h
  · obtain ⟨hjeq, hjne⟩ := hop _ (memRead_pc_of_fetch hi)
    rw [stepWith_of_fetch_ok (s := setFlag f s) hrun ((fetch_setFlag f).trans hi)]
    exact exec_setFlag (by rintro rfl; exact hjeq rfl) (by rintro rfl; exact hjne rfl) f hexec
  · exact .inr ⟨stepWith_of_fetch_error hrun ((fetch_setFlag f).trans herr), rfl⟩

/-- R60: a core that is not halted has a next state. -/
theorem stepWith_total (hrun : s.fault = none) : ∃ t, stepWith c s = .next t := by
  cases hf : fetch c s with
  | ok i => rw [stepWith_of_fetch_ok hrun hf]; exact exec_total i s
  | error cond => exact ⟨_, stepWith_of_fetch_error hrun hf⟩

end Sys2Proof.Machine

namespace Sys2Proof
open Machine

/-- Settles O13: the checked register write refuses the index, and the raise changes only the latch. -/
theorem ldiRaisesOutsideTheRegisterFile : Obligations.LdiRaisesOutsideTheRegisterFile :=
  fun r v s hr => ⟨raise (.outOfBounds .reg r) s, exec_ldi_of_ge hr v s, rfl, fun i => regRead_raise i _ s, rfl, rfl,
    fun a => memRead_raise a _ s⟩

/-- Settles O18: the frame of each piece of state. -/
theorem instructionsChangeOnlyTheirDestination : Obligations.InstructionsChangeOnlyTheirDestination := by
  intro i s t h
  refine ⟨memRead_congr (exec_mem h), fun k hk => exec_regRead h hk, exec_fl h, ?latch⟩
  case latch => exact (exec_fault_or_raise h).imp_right fun ⟨r, _, _, ht⟩ => ⟨.outOfBounds .reg r, ht⟩

/-- Settles O29: a raise leaves the flag register, and of the instructions only CMP writes it. -/
theorem onlyCmpWritesTheFlagRegister : Obligations.OnlyCmpWritesTheFlagRegister := by
  intro c s t h hne
  obtain ⟨-, ⟨i, hi, hexec⟩ | ⟨cond, -, rfl⟩⟩ := stepWith_cases h
  · obtain rfl : i = .cmp := by
      by_contra hc
      exact hne (exec_fl hexec hc)
    exact memRead_pc_of_fetch hi
  · exact absurd (raise_fl cond s) hne

/-- Settles O30: a raise leaves the registers, and of the instructions only LDI writes one, with the operands its fetch
read. -/
theorem onlyLdiWritesARegister : Obligations.OnlyLdiWritesARegister := by
  intro c s t k h hne
  obtain ⟨-, ⟨i, hi, hexec⟩ | ⟨cond, -, rfl⟩⟩ := stepWith_cases h
  · obtain ⟨v, rfl, hv⟩ := ldi_of_exec_regRead_ne hexec hne
    obtain ⟨hr, hv'⟩ := memRead_operands_of_fetch_ldi hi
    exact ⟨memRead_pc_of_fetch hi, hr, v, hv', hv⟩
  · exact absurd (regRead_raise k cond s) hne

/-- Settles O31: the two steps end in the same state, or in states that differ by the flag register they began with. -/
theorem onlyConditionalJumpsReadTheFlagRegister : Obligations.OnlyConditionalJumpsReadTheFlagRegister := by
  intro c s f hrun hop
  obtain ⟨t, ht⟩ := stepWith_total (c := c) hrun
  rcases stepWith_setFlag hop f ht with hu | ⟨hu, hfl⟩
  · exact ⟨t, t, ht, hu, rfl, rfl, rfl, rfl, .inl rfl⟩
  · exact ⟨t, setFlag f t, ht, hu, rfl, rfl, rfl, rfl, .inr ⟨rfl, hfl⟩⟩

end Sys2Proof
end

section
/-! The canonical form of memory (R21): a memory's cells are what it reads as other than 0, so its reads determine it. -/

namespace Sys2Proof.Machine

/-- An address that reads as anything but 0 is listed with what it reads as. -/
theorem Memory.mem_of_read_ne {m : Memory} {k : Nat} (h : m.read k ≠ unlistedByte) : (k, m.read k) ∈ m := by
  induction m with
  | nil => exact absurd rfl h
  | cons p m ih =>
    obtain ⟨a, b⟩ := p
    rw [Memory.read_cons] at h ⊢
    by_cases hak : a = k
    · simp [hak]
    · rw [if_neg hak] at h ⊢
      exact List.mem_cons_of_mem _ (ih h)

theorem Memory.mem_iff_read {m : Memory} (hm : m.wf) (p : Host.Cell) :
    p ∈ m ↔ m.read p.1 = p.2 ∧ p.2 ≠ unlistedByte := by
  obtain ⟨hrising, hcells⟩ := hm
  constructor
  · exact fun hp => ⟨Memory.read_of_mem hrising hp, (hcells p hp).2⟩
  · rintro ⟨hread, hne⟩
    rw [← hread] at hne
    simpa [hread] using Memory.mem_of_read_ne hne

/-- Two memories of the canonical form that read alike list the same cells, and there is one rising order of them. -/
theorem Memory.ext_read {m n : Memory} (hm : m.wf) (hn : n.wf) (h : ∀ a, m.read a = n.read a) : m = n := by
  have hcells : ∀ p, p ∈ m ↔ p ∈ n := fun p => by rw [Memory.mem_iff_read hm, Memory.mem_iff_read hn, h]
  have : Std.Asymm fun p q : Host.Cell => p.1 < q.1 := ⟨fun _ _ => lt_asymm⟩
  exact hm.1.eq_of_mem_iff hn.1 hcells

end Sys2Proof.Machine

namespace Sys2Proof
open Machine

/-- Settles O8. -/
theorem memoryWithEqualReadsIsEqual : Obligations.MemoryWithEqualReadsIsEqual :=
  fun _ _ => Memory.ext_read

end Sys2Proof
end

section
/-! The ports (R18, R22, R25): what `status` and `observe` show. -/

namespace Sys2Proof.Machine

theorem statusPort_of_none {s : State} (h : s.fault = none) :
    statusPort s = { halted := false, cause := 0#2, infoSpace := 0#1, infoIndex := 0#pcw, infoOpcode := 0#cellBits } := by
  simp [statusPort, h]

theorem statusPort_of_some {s : State} {c : Condition} (h : s.fault = some c) :
    statusPort s = { halted := true, cause := causeCode c, infoSpace := infoSpace c, infoIndex := infoIndex c,
                     infoOpcode := infoOpcode c } := by
  simp [statusPort, h]

/-- An index below 512 is shown as it is (log 6). -/
theorem toNat_ofNat_pcw {n : Nat} (h : n < 512) : (BitVec.ofNat pcw n).toNat = n :=
  Nat.mod_eq_of_lt h

/-- R18: no two flag values share a code. -/
theorem flagCode_inj {f g : Flag} : flagCode f = flagCode g ↔ f = g := by
  cases f <;> cases g <;> decide

/-- R25: the observed memory holds at each index what the checked read gives there, and ends with memory. -/
theorem observePort_mem_getElem? (s : State) (a : Nat) (b : Byte) :
    (observePort s).mem[a]? = some b ↔ memRead a s = .ok b := by
  rw [memRead_eq_ok]
  by_cases ha : a < memSize <;> simp [observePort, ha]

end Sys2Proof.Machine

namespace Sys2Proof
open Machine

/-- Settles O6: the fields are those of the latch's condition, whose index fits 9 bits. -/
theorem statusPortShowsTheFaultLatch : Obligations.StatusPortShowsTheFaultLatch := by
  intro s
  refine ⟨statusPort_of_none, ?unknown, ?outOfMemory, ?outOfRegisters, statusPort_of_some⟩
  case unknown => exact fun op addr h haddr => ⟨_, toNat_ofNat_pcw haddr, statusPort_of_some h⟩
  case outOfMemory => exact fun a h ha => ⟨_, toNat_ofNat_pcw ha, statusPort_of_some h⟩
  case outOfRegisters => exact fun i h hi => ⟨_, toNat_ofNat_pcw hi, statusPort_of_some h⟩

/-- Settles O7: the port copies the registers and `pc`, and the flag codes are those of four distinct values. -/
theorem observePortShowsStateAndFlagCodes : Obligations.ObservePortShowsStateAndFlagCodes :=
  fun s => ⟨rfl, rfl, flagCode_inj (g := .none), flagCode_inj (g := .equal), flagCode_inj (g := .lessThan),
    flagCode_inj (g := .greaterThan), observePort_mem_getElem? s⟩

end Sys2Proof
end

section
/-! The events of the interface (R25, R34, R86): what each permits in each phase, and that the latch outlasts all but
`reset`. -/

namespace Sys2Proof.Machine

section events
variable (c : Params) (s : State)

theorem after_load_loading {a : Nat} (ha : a < memSize) (b : Byte) :
    System.after c (.load a b) { phase := .loading, core := s } =
      some { phase := .loading, core := setMem a b s } := by
  simp [System.after, ha]

theorem after_load_outside {a : Nat} (ha : memSize ≤ a) (b : Byte) :
    System.after c (.load a b) { phase := .loading, core := s } = none := by
  simp [System.after, Nat.not_lt.mpr ha]

theorem after_load_running (a : Nat) (b : Byte) :
    System.after c (.load a b) { phase := .running, core := s } = none := rfl

theorem after_run_loading :
    System.after c .run { phase := .loading, core := s } = some { phase := .running, core := s } := rfl

theorem after_run_running : System.after c .run { phase := .running, core := s } = none := rfl

end events

variable {c : Params} {cond : Condition}

/-- R60: a halted core takes no step. -/
theorem after_step_halted {σ : System} (h : σ.core.fault = some cond) : σ.after c .step = none := by
  obtain ⟨phase, s⟩ := σ
  cases phase with
  | loading => rfl
  | running => simp [System.after, stepWith_halted h]

/-- R86: once a halted core runs, `reset` is the only event permitted. -/
theorem after_running_halted {σ : System} {e : Event} (he : e ≠ .reset) (hσ : σ.phase = .running)
    (h : σ.core.fault = some cond) : σ.after c e = none := by
  obtain ⟨phase, s⟩ := σ
  subst hσ
  cases e with
  | reset => exact absurd rfl he
  | load a b => exact after_load_running c s a b
  | run => exact after_run_running c s
  | step => exact after_step_halted h

/-- R22: no event but `reset` changes a set latch. -/
theorem after_keeps_latch {σ τ : System} {e : Event} (he : e ≠ .reset) (h : σ.core.fault = some cond)
    (hτ : σ.after c e = some τ) : τ.core.fault = some cond := by
  cases hphase : σ.phase with
  | running => rw [after_running_halted he hphase h] at hτ; cases hτ
  | loading =>
    obtain ⟨phase, s⟩ := σ
    subst hphase
    cases e with
    | reset => exact absurd rfl he
    | load a b =>
      by_cases ha : a < memSize
      · rw [after_load_loading c s ha, Option.some.injEq] at hτ
        exact hτ ▸ h
      · rw [after_load_outside c s (by omega)] at hτ
        cases hτ
    | run =>
      rw [after_run_loading, Option.some.injEq] at hτ
      exact hτ ▸ h
    | step => rw [after_step_halted h] at hτ; cases hτ

/-- A sequence of permitted events begins with a permitted one. -/
theorem afterAll_cons_eq_some {σ τ : System} {e : Event} {rest : List Event}
    (h : System.afterAll c (e :: rest) σ = some τ) :
    ∃ ρ, σ.after c e = some ρ ∧ System.afterAll c rest ρ = some τ := by
  cases he : σ.after c e with
  | none => simp [System.afterAll, he] at h
  | some ρ => exact ⟨ρ, rfl, by simpa [System.afterAll, he] using h⟩

end Sys2Proof.Machine

namespace Sys2Proof
open Machine

/-- Settles O4: a load is a write of one cell of a canonical memory; the other clauses are the events' permissions. -/
theorem loadWritesOneCellBeforeRunOnly : Obligations.LoadWritesOneCellBeforeRunOnly := by
  intro c a b s hs
  refine ⟨fun ha => ?inside, fun ha => after_load_outside c s ha b, after_load_running c s a b, after_run_loading c s,
    after_run_running c s⟩
  case inside =>
    have hread := memRead_setMem hs ha b
    exact ⟨setMem a b s, after_load_loading c s ha b, Memory.wf_write hs ha b, by rw [hread, if_pos rfl],
      fun k hk => by rw [hread, if_neg hk], rfl, rfl, rfl, rfl⟩

/-- Settles O28, by induction on the events: each keeps the latch, and a halted core that runs permits none. -/
theorem faultLatchIsClearedByResetOnly : Obligations.FaultLatchIsClearedByResetOnly := by
  intro c events
  induction events with
  | nil =>
    intro σ τ cond _ h hτ
    obtain rfl : σ = τ := Option.some.inj hτ
    exact ⟨h, fun _ => rfl⟩
  | cons e rest ih =>
    intro σ τ cond hreset h hτ
    obtain ⟨he, hrest⟩ : e ≠ .reset ∧ Event.reset ∉ rest := by simpa [eq_comm] using hreset
    obtain ⟨ρ, hρ, hτ⟩ := afterAll_cons_eq_some hτ
    refine ⟨(ih ρ τ cond hrest (after_keeps_latch he h hρ) hτ).1, fun hrunning => ?_⟩
    rw [after_running_halted he hrunning h] at hρ
    cases hρ

end Sys2Proof
end

section
/-! Runs (R29, R54): a property that every step keeps is kept by any number of steps, and memory is never written. -/

namespace Sys2Proof.Machine

variable {s t : State}

/-- R29, R85: a step writes no memory, whether it runs an instruction or raises. -/
theorem stepWith_mem {c : Params} (h : stepWith c s = .next t) : t.mem = s.mem := by
  obtain ⟨-, ⟨i, -, hexec⟩ | ⟨cond, -, rfl⟩⟩ := stepWith_cases h
  · exact exec_mem hexec
  · exact raise_mem cond s

/-- A run of `n + 1` steps with a next state is a first step and a run of `n` from where it leads. -/
theorem core_run_succ_eq_next {n : Nat} (h : Host.Core.run core (n + 1) s = .next t) :
    ∃ u, step s = .next u ∧ Host.Core.run core n u = .next t := by
  simp only [Host.Core.run, core] at h
  split at h
  next u hu => exact ⟨u, hu, h⟩
  all_goals cases h

theorem core_run_keeps {P : State → Prop} (hstep : ∀ {u v : State}, P u → step u = .next v → P v) {n : Nat}
    (h : Host.Core.run core n s = .next t) (hs : P s) : P t := by
  induction n generalizing s with
  | zero =>
    obtain rfl : s = t := Host.Outcome.next.inj h
    exact hs
  | succ n ih =>
    obtain ⟨u, hu, hrest⟩ := core_run_succ_eq_next h
    exact ih hrest (hstep hs hu)

end Sys2Proof.Machine

namespace Sys2Proof
open Machine

/-- Settles O9, by induction on the number of steps: each leaves memory as it was at the start. -/
theorem memoryIsConstantDuringARun : Obligations.MemoryIsConstantDuringARun := by
  intro n s t h a
  have hmem : t.mem = s.mem :=
    core_run_keeps (P := fun u => u.mem = s.mem) (fun hu hv => (stepWith_mem hv).trans hu) h rfl
  exact memRead_congr hmem a

end Sys2Proof
end

section
/-! The loader: the length check of an image (R35), and the bytes that the lines of a plain program text stand for
(R50). -/

namespace Sys2Proof.Machine

theorem launchWith_of_gt {image : List Byte} (h : memSize < image.length) (c : Params) :
    launchWith c image = .error (.imageTooLong image.length) :=
  if_neg (Nat.not_le.mpr h)

@[simp] theorem digitBit_bitDigit (b : Bool) : digitBit (bitDigit b) = some b := by cases b <;> rfl

@[simp] theorem isBlank_bitDigit (b : Bool) : isBlank (bitDigit b) = false := by cases b <;> rfl

/-- A byte's bits, bit 7 first (R7). -/
def byteBits (b : Byte) : List Bool := (List.range 8).reverse.map b.getLsbD

theorem byteBits_length (b : Byte) : (byteBits b).length = 8 := rfl

theorem literalOf_eq_map_byteBits (b : Byte) : literalOf b = (byteBits b).map bitDigit := rfl

theorem literalOf_length (b : Byte) : (literalOf b).length = 8 := rfl

theorem mapM_digitBit_map_bitDigit (bits : List Bool) : (bits.map bitDigit).mapM digitBit = some bits := by
  induction bits with
  | nil => rfl
  | cons b bits ih => simp [ih]

/-- Reading `n` low bits of `x`, the highest first, appends them to the number read so far. -/
theorem foldl_testBit_range_reverse (x n a : Nat) :
    ((List.range n).reverse.map x.testBit).foldl (fun m b => 2 * m + b.toNat) a = a * 2 ^ n + x % 2 ^ n := by
  induction n generalizing a with
  | zero => simp [Nat.mod_one]
  | succ n ih =>
    calc ((List.range (n + 1)).reverse.map x.testBit).foldl (fun m b => 2 * m + b.toNat) a
        = (2 * a + (x.testBit n).toNat) * 2 ^ n + x % 2 ^ n := by
          rw [List.range_succ, List.reverse_append, List.reverse_singleton, List.singleton_append, List.map_cons,
            List.foldl_cons, ih]
      _ = a * 2 ^ (n + 1) + x % 2 ^ (n + 1) := by rw [Nat.mod_pow_succ, Nat.toNat_testBit]; ring

theorem bitsValue_byteBits (b : Byte) : bitsValue (byteBits b) = b.toNat := by
  calc bitsValue (byteBits b) = 0 * 2 ^ 8 + b.toNat % 2 ^ 8 := foldl_testBit_range_reverse b.toNat 8 0
    _ = b.toNat := by rw [Nat.zero_mul, Nat.zero_add, Nat.mod_eq_of_lt b.isLt]

theorem not_all_isBlank_literal (b : Byte) (tail : List Char) : ¬ (literalOf b ++ tail).all isBlank := by
  simp [literalOf]

theorem parseLine_blank {line : List Char} (h : line.all isBlank) : parseLine line = some [] := if_pos h

/-- R50: a literal, with anything after it that a line may end with, is its byte. -/
theorem parseLine_literal (b : Byte) {tail : List Char} (h : isTrailer tail) :
    parseLine (literalOf b ++ tail) = some [b] := by
  have htake : (literalOf b ++ tail).take 8 = literalOf b := List.take_left' (literalOf_length b)
  have hdrop : (literalOf b ++ tail).drop 8 = tail := List.drop_left' (literalOf_length b)
  have hbits : (literalOf b).mapM digitBit = some (byteBits b) := mapM_digitBit_map_bitDigit (byteBits b)
  rw [parseLine, if_neg (not_all_isBlank_literal b tail), htake, hdrop, hbits]
  simp [byteBits_length, h, bitsValue_byteBits]

theorem parseProgram_cons {line : List Char} {bytes : List Byte} (h : parseLine line = some bytes)
    (rest : List (List Char)) (n : Nat) :
    parseProgram (line :: rest) n = parseProgram rest (n + 1) >>= fun more => .ok (bytes ++ more) := by
  rw [parseProgram, h]
  rfl

/-- R50: the lines of a text contribute the bytes it is a text of, whatever the number of its first line. -/
theorem parseProgram_of_textOf {lines : List (List Char)} {image : List Byte} (h : TextOf lines image) (n : Nat) :
    parseProgram lines n = .ok image := by
  induction h generalizing n with
  | done => rfl
  | blank hline _ ih => rw [parseProgram_cons (parseLine_blank hline), ih, ok_bind, List.nil_append]
  | byte htail _ ih => rw [parseProgram_cons (parseLine_literal _ htail), ih, ok_bind, List.singleton_append]

end Sys2Proof.Machine

namespace Sys2Proof
open Machine

/-- Settles O3: the length check comes before anything is placed. -/
theorem imageLongerThanMemoryIsRefused : Obligations.ImageLongerThanMemoryIsRefused := by
  intro c image hlen s h
  rw [launchWith_of_gt hlen] at h
  cases h

/-- Settles O5, by induction on the text: it parses to its byte sequence, which is then launched. -/
theorem loadingProgramTextLoadsItsBytes : Obligations.LoadingProgramTextLoadsItsBytes := by
  intro lines image h
  rw [loadText, parseProgram_of_textOf h, ok_bind]

end Sys2Proof
end

section
/-! The encoding (R42 to R48): the decoder against the encoder, and what CMP and the jumps read of memory (R47). -/

namespace Sys2Proof
open Machine

section
variable {c : Params} {i : Instr} {bytes rest : List Byte} {p1 p2 : Byte}

theorem byteAt_eq_error {k : Nat} {e : DecodeError} :
    byteAt bytes k = .error e ↔ bytes[k]? = none ∧ e = .missingByte k := by
  unfold byteAt
  cases bytes[k]? <;> simp [eq_comm]

/-- R47: an opcode that is not LDI's decides the instruction alone. -/
theorem decodeFrom_of_opcode {ε : Type} {read : Nat → Except ε Byte} {illegal : Byte → ε} (hc : c.Distinct)
    (hi : ∀ r v, i ≠ .ldi r v) (h : read 0 = .ok (i.opcode c)) : decodeFrom c read illegal = .ok i := by
  cases i with
  | ldi r v => exact absurd rfl (hi r v)
  | cmp => exact decodeFrom_cmp hc h
  | jmp => exact decodeFrom_jmp hc h
  | jeq => exact decodeFrom_jeq hc h
  | jne => exact decodeFrom_jne hc h

theorem byteAt_encodePadded_zero : byteAt (encodePadded c p1 p2 i ++ rest) 0 = .ok (i.opcode c) := by
  cases i <;> rfl

theorem ldiIndex_toNat {r : Nat} {v : Byte} (h : (Instr.ldi r v).wf = true) : (BitVec.ofNat cellBits r).toNat = r :=
  Nat.mod_eq_of_lt (of_decide_eq_true h)

theorem decodeWith_encodePadded_ldi {r : Nat} {v : Byte} (h : (Instr.ldi r v).wf = true) :
    decodeWith c (encodePadded c p1 p2 (.ldi r v) ++ rest) = .ok (.ldi r v) := by
  have hbytes : decodeWith c (encodePadded c p1 p2 (.ldi r v) ++ rest) =
      .ok (.ldi (BitVec.ofNat cellBits r).toNat v) := decodeFrom_ldi byteAt_encodePadded_zero
  rw [hbytes, ldiIndex_toNat h]

/-- R43, R47: an instruction's bytes are its opcode and the two bytes after it, cut to its length, where these are what
the decoder read as LDI's operands. -/
theorem encodePadded_of_decodeFrom {ε : Type} {read : Nat → Except ε Byte} {illegal : Byte → ε}
    (h : decodeFrom c read illegal = .ok i) (h1 : ∀ b, read 1 = .ok b → p1 = b) (h2 : ∀ b, read 2 = .ok b → p2 = b) :
    encodePadded c p1 p2 i = [i.opcode c, p1, p2].take i.length := by
  obtain ⟨-, rfl | rfl | rfl | rfl | ⟨r, v, rfl, hr, hv⟩⟩ := decodeFrom_eq_ok h
  · rfl
  · rfl
  · rfl
  · rfl
  · simp [encodePadded, Instr.opcode, Instr.length, h1 r hr, h2 v hv]

/-- R42: no instruction is longer than three bytes. -/
theorem Instr.length_le_three (i : Instr) : i.length ≤ 3 := by
  cases i <;> simp [Instr.length]

theorem take_three_isPrefix_getD (l : List Byte) (d : Byte) : l.take 3 <+: [l.getD 0 d, l.getD 1 d, l.getD 2 d] := by
  rcases l with _ | ⟨a, _ | ⟨b, _ | ⟨e, l⟩⟩⟩ <;> simp

theorem getD_of_byteAt {k : Nat} {b : Byte} (h : byteAt bytes k = .ok b) (d : Byte) : bytes.getD k d = b := by
  simp [List.getD, byteAt_eq_ok.mp h]

/-- R43, R47: the bytes of a decoded instruction are the beginning of its encoding with the bytes after the opcode as
pads, 0 where there is none. -/
theorem take_isPrefix_encodePadded (h : decodeWith c bytes = .ok i) :
    bytes.take i.length <+: encodePadded c (bytes.getD 1 0) (bytes.getD 2 0) i := by
  have hop : bytes.getD 0 0 = i.opcode c := getD_of_byteAt (decodeFrom_eq_ok h).1 0
  have henc : encodePadded c (bytes.getD 1 0) (bytes.getD 2 0) i =
      [bytes.getD 0 0, bytes.getD 1 0, bytes.getD 2 0].take i.length :=
    hop ▸ encodePadded_of_decodeFrom h (fun _ h1 => getD_of_byteAt h1 0) (fun _ h2 => getD_of_byteAt h2 0)
  have hcut : bytes.take i.length = (bytes.take 3).take i.length := by
    rw [List.take_take, Nat.min_eq_left i.length_le_three]
  rw [henc, hcut]
  exact (take_three_isPrefix_getD bytes 0).take i.length

end

/-- Settles O38: LDI's operand bytes come back as its operands, and of every other instruction the opcode is enough. -/
theorem decodeOfEncodeIsTheInstruction : Obligations.DecodeOfEncodeIsTheInstruction := by
  intro c p1 p2 i rest hc hwf
  by_cases hi : ∀ r v, i ≠ .ldi r v
  · exact decodeFrom_of_opcode hc hi byteAt_encodePadded_zero
  · push Not at hi
    obtain ⟨r, v, rfl⟩ := hi
    exact decodeWith_encodePadded_ldi hwf

/-- Settles O39: the pad bytes are the bytes that stand after the opcode. -/
theorem decodedBytesAreTheInstructionsEncoding : Obligations.DecodedBytesAreTheInstructionsEncoding :=
  fun _ _ _ h => ⟨decodeFrom_wf h, _, _, take_isPrefix_encodePadded h⟩

/-- Settles O40: of the ways the decoder can fail, a missing byte is never named an unknown opcode. -/
theorem illegalOpcodesAreExactlyTheOtherBytes : Obligations.IllegalOpcodesAreExactlyTheOtherBytes := by
  intro c op rest
  refine ⟨fun h => ?_, fun hop => decodeFrom_illegal rfl hop⟩
  have hread : ∀ k, byteAt (op :: rest) k ≠ .error (.unknownOpcode op) := fun k hk => by
    obtain ⟨-, he⟩ := byteAt_eq_error.mp hk
    cases he
  obtain h0 | ⟨-, h1 | ⟨_, -, h2⟩⟩ | ⟨_, -, hop, he⟩ := decodeFrom_eq_error h
  · exact absurd h0 (hread 0)
  · exact absurd h1 (hread 1)
  · exact absurd h2 (hread 2)
  · cases he
    exact hop

/-- Settles O41: the first six words are encodings, the next one's opcode is none of the five, and the last one is
LDI's without its second operand. -/
theorem wordsOfTheEncodingTableDecode : Obligations.WordsOfTheEncodingTableDecode := by
  have hdec (p1 p2 : Byte) (i : Instr) (hi : i.wf = true) :
      decode (encodePadded Config.hardware.params p1 p2 i ++ []) = .ok i :=
    decodeOfEncodeIsTheInstruction _ p1 p2 i [] hardware_distinct hi
  refine ⟨hdec 0 0 (.ldi 0 3#8) rfl, hdec 0 0 (.ldi 255 130#8) rfl, hdec 2#8 3#8 .cmp rfl, hdec 7#8 0 .jmp rfl,
    hdec 0 0 .jeq rfl, hdec 0 0 .jne rfl, ?illegal, ?missing⟩
  case illegal => exact (illegalOpcodesAreExactlyTheOtherBytes _ _ _).mpr (by decide)
  case missing => exact decodeFrom_ldi rfl

end Sys2Proof

namespace Sys2Proof.Machine

variable {c : Params} {i : Instr} {s t : State}

/-- R27, R29: an instruction's effect does not depend on memory, which it leaves as it is. -/
theorem exec_withMem (m : Memory) (h : exec i s = .next t) : exec i { s with mem := m } = .next { t with mem := m } := by
  rcases exec_cases h with ⟨r, v, hr, rfl, rfl⟩ | ⟨rfl, rfl⟩ | ⟨hj, hp, rfl⟩ | ⟨r, v, rfl, hr, rfl⟩ | ⟨hj, hp, rfl⟩
  · exact exec_ldi_of_lt hr v _
  · exact exec_cmp _
  · exact (exec_jump hj _).trans (jumpIf_of_le (s := { s with mem := m }) hp _)
  · exact exec_ldi_of_ge hr v _
  · exact (exec_jump hj _).trans (jumpIf_of_ge (s := { s with mem := m }) hp _)

/-- R47: to fetch CMP or a jump, the opcode byte at `pc` is enough. -/
theorem fetch_of_opcode (hc : c.Distinct) (hi : ∀ r v, i ≠ .ldi r v) (hp : s.pc.toNat < memSize)
    (h : s.mem.read s.pc.toNat = i.opcode c) : fetch c s = .ok i :=
  decodeFrom_of_opcode hc hi (memRead_eq_ok.mpr ⟨hp, h⟩)

/-- R45: the opcode values other than LDI's are those of the instructions without operand bytes. -/
theorem exists_opcode_eq {b : Byte} (h : b ∈ [c.opcCmp, c.opcJmp, c.opcJeq, c.opcJne]) :
    ∃ i : Instr, (∀ r v, i ≠ .ldi r v) ∧ b = i.opcode c := by
  simp only [List.mem_cons, List.not_mem_nil, or_false] at h
  rcases h with rfl | rfl | rfl | rfl
  · exact ⟨.cmp, nofun, rfl⟩
  · exact ⟨.jmp, nofun, rfl⟩
  · exact ⟨.jeq, nofun, rfl⟩
  · exact ⟨.jne, nofun, rfl⟩

end Sys2Proof.Machine

namespace Sys2Proof
open Machine

/-- Settles O32: both memories fetch the same instruction, whose effect does not depend on memory. -/
theorem padBytesAndOtherMemoryAreIgnored : Obligations.PadBytesAndOtherMemoryAreIgnored := by
  intro c s m hc hrun hp hop hm
  obtain ⟨i, hi, hbyte⟩ := exists_opcode_eq hop
  obtain ⟨t, ht⟩ := exec_total i s
  have hfetch : fetch c s = .ok i := fetch_of_opcode hc hi hp hbyte
  have hfetch' : fetch c { s with mem := m } = .ok i := fetch_of_opcode hc hi hp (hm.trans hbyte)
  exact ⟨t, (stepWith_of_fetch_ok hrun hfetch).trans ht,
    (stepWith_of_fetch_ok (s := { s with mem := m }) hrun hfetch').trans (exec_withMem m ht)⟩

end Sys2Proof
end

section
/-! Fetch and dispatch (R54 to R60): the fetch reads the bytes that stand from `pc` on, tries the opcodes in the order
of R59's page, and each arm of `exec` is that page's arm. -/

namespace Sys2Proof.Machine

variable {c : Params} {s : State}

theorem filter_lt_range' (a n m : Nat) : (List.range' a n).filter (· < m) = List.range' a (min n (m - a)) := by
  induction n generalizing a with
  | zero => simp
  | succ n ih =>
    by_cases h : a < m
    · have hlen : min (n + 1) (m - a) = min n (m - (a + 1)) + 1 := by omega
      simp [hlen, List.range'_succ, h, ih]
    · have hm : m - a = 0 := by omega
      have hm' : m - (a + 1) = 0 := by omega
      simp [List.range'_succ, h, ih, hm, hm']

/-- R55: byte `k` of the bytes at `pc` is what the fetch's checked read `k` places on answers. -/
theorem memRead_of_byteAt_bytesAtPc {k : Nat} {b : Byte} (h : byteAt (bytesAtPc s) k = .ok b) :
    memRead (s.pc.toNat + k) s = .ok b := by
  rw [byteAt_eq_ok, bytesAtPc, filter_lt_range', List.getElem?_map, Option.map_eq_some_iff] at h
  obtain ⟨a, ha, hb⟩ := h
  obtain ⟨hk, rfl⟩ := List.getElem?_eq_some_iff.mp ha
  rw [List.length_range'] at hk
  rw [List.getElem_range', Nat.one_mul] at hb
  exact memRead_eq_ok.mpr ⟨by omega, hb⟩

/-- R53, R55: the fetch finds the instruction that the bytes at `pc` decode to. -/
theorem fetch_of_decodeWith_bytesAtPc {i : Instr} (h : decodeWith c (bytesAtPc s) = .ok i) : fetch c s = .ok i :=
  decodeFrom_map_ok (fun _ _ _ => memRead_of_byteAt_bytesAtPc) h

/-- R61, R76: an LDI in the last cell has no first operand. -/
theorem fetch_ldi_of_operand1_ge (hp : s.pc.toNat < memSize) (hop : s.mem.read s.pc.toNat = c.opcLdi)
    (h1 : memSize ≤ s.pc.toNat + 1) : fetch c s = .error (.outOfBounds .mem (s.pc.toNat + 1)) := by
  rw [fetch, decodeFrom_ldi (memRead_eq_ok.mpr ⟨hp, hop⟩), memRead_of_ge h1, error_bind]

/-- R61, R76: an LDI in the last cell but one has no second operand. -/
theorem fetch_ldi_of_operand2_ge (h1 : s.pc.toNat + 1 < memSize) (hop : s.mem.read s.pc.toNat = c.opcLdi)
    (h2 : memSize ≤ s.pc.toNat + 2) : fetch c s = .error (.outOfBounds .mem (s.pc.toNat + 2)) := by
  rw [fetch, decodeFrom_ldi (memRead_eq_ok.mpr ⟨by omega, hop⟩), memRead_of_lt h1, ok_bind, memRead_of_ge h2,
    error_bind]

/-- R46, R61: an LDI that stands in memory whole is fetched with its two operand bytes. -/
theorem fetch_ldi_of_operand2_lt (h2 : s.pc.toNat + 2 < memSize) (hop : s.mem.read s.pc.toNat = c.opcLdi) :
    fetch c s = .ok (.ldi (s.mem.read (s.pc.toNat + 1)).toNat (s.mem.read (s.pc.toNat + 2))) := by
  rw [fetch, decodeFrom_ldi (memRead_eq_ok.mpr ⟨by omega, hop⟩), memRead_of_lt (by omega), ok_bind, memRead_of_lt h2,
    ok_bind]

/-- R56, R59: the dispatch of an opcode other than LDI's, in the order of the page; the opcode values need not be
distinct. -/
theorem fetch_of_ne_ldi (hp : s.pc.toNat < memSize) (hop : s.mem.read s.pc.toNat ≠ c.opcLdi) :
    fetch c s =
      if s.mem.read s.pc.toNat = c.opcCmp then .ok .cmp
      else if s.mem.read s.pc.toNat = c.opcJmp then .ok .jmp
      else if s.mem.read s.pc.toNat = c.opcJeq then .ok .jeq
      else if s.mem.read s.pc.toNat = c.opcJne then .ok .jne
      else .error (.unknownOpcode (s.mem.read s.pc.toNat) s.pc.toNat) := by
  simp [fetch, decodeFrom, memRead_of_lt hp, hop]

/-- R61: LDI's own arm, one expression for both sides of its register check. -/
theorem exec_ldi (r : Nat) (v : Byte) (s : State) :
    exec (.ldi r v) s = .next (if h : r < nregs then
        { s with x := s.x.set r v h, pc := BitVec.ofNat pcw (s.pc.toNat + 3) }
      else { s with fault := some (.outOfBounds .reg r) }) := by
  split
  next hr => exact exec_ldi_of_lt hr v s
  next hr => exact exec_ldi_of_ge (Nat.le_of_not_lt hr) v s

/-- R68: the jumps' shared arm, one expression for both sides of its register check. -/
theorem jumpIf_decide (taken : Prop) [Decidable taken] (s : State) :
    jumpIf (decide taken) s = .next (if h : s.pc.toNat + 1 < nregs then
        { s with pc := BitVec.ofNat pcw (if taken then s.x[s.pc.toNat + 1].toNat + 2 else s.pc.toNat + 2) }
      else { s with fault := some (.outOfBounds .reg (s.pc.toNat + 1)) }) := by
  split
  next h => simp [jumpIf, jumpOperand, regRead_of_lt h, setPc, jumpTarget]
  next h => simp [jumpIf, jumpOperand, regRead_of_ge (Nat.le_of_not_lt h), raise]

end Sys2Proof.Machine

namespace Sys2Proof
open Machine

/-- Settles O20: the fetch finds the instruction, and a core that is not halted runs what it fetched. -/
theorem stepRunsTheDecodedInstruction : Obligations.StepRunsTheDecodedInstruction :=
  fun _ _ hrun hdec => stepWith_of_fetch_ok hrun (fetch_of_decodeWith_bytesAtPc hdec)

/-- Settles O21: a step with a next state began with a clear latch, and from a clear latch there always is one. -/
theorem stepExistsExactlyWhileNotHalted : Obligations.StepExistsExactlyWhileNotHalted :=
  fun _ _ => ⟨⟨fun ⟨_, h⟩ => (stepWith_cases h).1, stepWith_total⟩, fun _ => stepWith_halted⟩

/-- Settles O34: through the page's checks in their order, down to the instruction that the fetch found, whose effect is
the page's arm, or to the condition that it raised. -/
theorem stepIsTheStepFunctionOfItsPage : Obligations.StepIsTheStepFunctionOfItsPage := by
  intro c s hrun
  have raises {cond : Condition} (h : fetch c s = .error cond) : stepWith c s = .next (raise cond s) :=
    stepWith_of_fetch_error hrun h
  have runs {i : Instr} {t : State} (h : fetch c s = .ok i) (ht : exec i s = .next t) : stepWith c s = .next t :=
    (stepWith_of_fetch_ok hrun h).trans ht
  unfold Spec.pageStep
  by_cases hp : memSize ≤ s.pc.toNat
  · rw [if_pos hp]
    exact raises (fetch_of_ge hp)
  rw [if_neg hp]
  rw [Nat.not_le] at hp
  by_cases hldi : s.mem.read s.pc.toNat = c.opcLdi
  · rw [if_pos hldi]
    by_cases h1 : memSize ≤ s.pc.toNat + 1
    · rw [if_pos h1]
      exact raises (fetch_ldi_of_operand1_ge hp hldi h1)
    by_cases h2 : memSize ≤ s.pc.toNat + 2
    · rw [if_neg h1, if_pos h2]
      exact raises (fetch_ldi_of_operand2_ge (Nat.lt_of_not_le h1) hldi h2)
    · rw [if_neg h1, if_neg h2]
      exact runs (fetch_ldi_of_operand2_lt (Nat.lt_of_not_le h2) hldi) (exec_ldi _ _ s)
  have hfetch := fetch_of_ne_ldi hp hldi
  rw [if_neg hldi]
  by_cases hcmp : s.mem.read s.pc.toNat = c.opcCmp
  · rw [if_pos hcmp] at hfetch ⊢
    exact runs hfetch (exec_cmp s)
  rw [if_neg hcmp] at hfetch ⊢
  by_cases hjmp : s.mem.read s.pc.toNat = c.opcJmp
  · rw [if_pos hjmp] at hfetch ⊢
    exact runs hfetch (jumpIf_decide True s)
  rw [if_neg hjmp] at hfetch ⊢
  by_cases hjeq : s.mem.read s.pc.toNat = c.opcJeq
  · rw [if_pos hjeq] at hfetch ⊢
    exact runs hfetch (jumpIf_decide (s.fl = .equal) s)
  rw [if_neg hjeq] at hfetch ⊢
  by_cases hjne : s.mem.read s.pc.toNat = c.opcJne
  · rw [if_pos hjne] at hfetch ⊢
    exact runs hfetch (jumpIf_decide (s.fl = .none) s)
  · rw [if_neg hjne] at hfetch ⊢
    exact raises hfetch

end Sys2Proof
end

section
/-! Load immediate (R61, R62): the step's checks in their order, and its frame. -/

namespace Sys2Proof.Machine

variable {c : Params} {s : State}

/-- R46, R61: an LDI is fetched with the bytes that the checked reads at `pc + 1` and `pc + 2` answer. -/
theorem fetch_ldi_of_memRead {r v : Byte} (hop : memRead s.pc.toNat s = .ok c.opcLdi)
    (hr : memRead (s.pc.toNat + 1) s = .ok r) (hv : memRead (s.pc.toNat + 2) s = .ok v) :
    fetch c s = .ok (.ldi r.toNat v) := by
  rw [fetch, decodeFrom_ldi hop, hr, ok_bind, hv, ok_bind]

end Sys2Proof.Machine

namespace Sys2Proof
open Machine

/-- Settles O12: LDI's effect is one register write and one write of `pc`, which stays below `2 ^ PCW`. -/
theorem ldiWritesItsRegister : Obligations.LdiWritesItsRegister := by
  intro r v s hr hp
  have hm := memSize_eq
  refine ⟨_, exec_ldi_of_lt hr v s, ?written, ?others, setPc_toNat (by omega) _, rfl, fun _ => rfl, rfl⟩
  case written => rw [regRead_setPc, regRead_setReg, if_pos rfl]
  case others =>
    intro i hi
    rw [regRead_setPc, regRead_setReg, if_neg hi]

/-- Settles O22: the fetch raises at the first operand address outside memory, and otherwise LDI runs with the bytes
that the fetch read, on the side of its register check that their index is on. -/
theorem ldiStepChecksThenWrites : Obligations.LdiStepChecksThenWrites := by
  refine ⟨rfl, fun c s hrun hp hop => ?_⟩
  have hbyte : s.mem.read s.pc.toNat = c.opcLdi := (memRead_eq_ok.mp hop).2
  refine ⟨?operand1Outside, fun r hr => ⟨?operand2Outside, fun v hv => ?bothInside⟩⟩
  case operand1Outside =>
    intro h1
    exact stepWith_of_fetch_error hrun (fetch_ldi_of_operand1_ge hp hbyte h1)
  case operand2Outside =>
    intro h2
    have h1 : s.pc.toNat + 1 < memSize := (memRead_eq_ok.mp hr).1
    exact stepWith_of_fetch_error hrun (fetch_ldi_of_operand2_ge h1 hbyte h2)
  case bothInside =>
    have hstep : stepWith c s = exec (.ldi r.toNat v) s :=
      stepWith_of_fetch_ok hrun (fetch_ldi_of_memRead hop hr hv)
    exact ⟨fun h => hstep.trans (exec_ldi_of_ge h v s), fun h => hstep.trans (exec_ldi_of_lt h v s)⟩

/-- Settles O23: the fetch finds the LDI of the two operand bytes, and the rest is that instruction's own frame. -/
theorem ldiStepMutatesNoOtherState : Obligations.LdiStepMutatesNoOtherState := by
  intro c s r v hrun hp hop hr hr7 hv
  have hreg : r.toNat < nregs := Nat.lt_succ_of_le hr7
  obtain ⟨t, hexec, hwritten, hothers, hpc, hfl, hmem, hfault⟩ := ldiWritesItsRegister r.toNat v s hreg (by omega)
  have hstep : stepWith c s = .next t := (stepWith_of_fetch_ok hrun (fetch_ldi_of_memRead hop hr hv)).trans hexec
  exact ⟨t, hstep, hwritten, hothers, hpc, hfl, hmem, hfault.trans hrun⟩

end Sys2Proof
end

section
/-! The comparison ALU and CMP (R63 to R67): the comparison as three equivalences, CMP's effect with the fetch that
follows it, and CMP followed by a conditional jump. -/

namespace Sys2Proof.Machine

section compare
variable (a b : Word)

theorem compareFlag_eq_equal : compareFlag a b = .equal ↔ a.toNat = b.toNat := by
  rcases compareFlag_cases a b with ⟨rfl, h⟩ | ⟨hlt, h⟩ | ⟨hgt, h⟩
  · simp [h]
  · simp [h, hlt.ne]
  · simp [h, hgt.ne']

theorem compareFlag_eq_lessThan : compareFlag a b = .lessThan ↔ a.toNat < b.toNat := by
  rcases compareFlag_cases a b with ⟨rfl, h⟩ | ⟨hlt, h⟩ | ⟨hgt, h⟩
  · simp [h]
  · simp [h, hlt]
  · simp [h, hgt.le]

theorem compareFlag_eq_none : compareFlag a b = .none ↔ b.toNat < a.toNat := by
  rcases compareFlag_cases a b with ⟨rfl, h⟩ | ⟨hlt, h⟩ | ⟨hgt, h⟩
  · simp [h]
  · simp [h, hlt.le]
  · simp [h, hgt]

theorem alu_compare_eq_ok {f : Flag} : alu .compare a b = .ok f ↔ compareFlag a b = f := by
  rw [alu_compare, Except.ok.injEq]

end compare

variable {c : Params} {s t : State} {cond : Condition}

/-- R56, R76: the fetch has no condition of the ALU to raise. -/
theorem fetch_error_ne_unsupportedAluOperation (h : fetch c s = .error cond) : cond ≠ .unsupportedAluOperation := by
  rcases fetch_eq_error h with ⟨-, rfl⟩ | ⟨-, -, -, rfl⟩ | ⟨-, -, rfl⟩ <;> nofun

/-- R66: an instruction adds no condition of the ALU to the latch. -/
theorem exec_fault_ne_unsupportedAluOperation {i : Instr} (hs : s.fault ≠ some .unsupportedAluOperation)
    (h : exec i s = .next t) : t.fault ≠ some .unsupportedAluOperation := by
  rcases exec_fault_or_raise h with hf | ⟨r, -, -, rfl⟩
  · rwa [hf]
  · nofun

/-- R55, R76: a core that is not halted and whose `pc` is outside memory raises at the opcode's address. -/
theorem stepWith_of_pc_ge {p : Nat} (hrun : s.fault = none) (hpc : s.pc.toNat = p) (hp : memSize ≤ p) :
    stepWith c s = .next (raise (.outOfBounds .mem p) s) := by
  subst hpc
  exact stepWith_of_fetch_error hrun (fetch_of_ge hp)

/-- R65: CMP completes, its result in the flag register and `pc` moved on without wrapping. -/
theorem exists_exec_cmp (hp : s.pc.toNat < memSize) :
    ∃ t, exec .cmp s = .next t ∧ t.fl = compareFlag s.x[0] s.x[1] ∧ t.pc.toNat = s.pc.toNat + 3 ∧
      t.x = s.x ∧ t.mem = s.mem ∧ t.fault = s.fault :=
  ⟨_, exec_cmp s, rfl, setPc_toNat (by have := memSize_eq; omega) _, rfl, rfl, rfl⟩

/-- R68: a jump that has its operand goes to the operand plus 2, or to the next instruction. -/
theorem exists_jumpIf {v : Word} (hv : regRead (s.pc.toNat + 1) s = .ok v) (taken : Bool) :
    ∃ u, jumpIf taken s = .next u ∧ u.pc.toNat = if taken then v.toNat + 2 else s.pc.toNat + 2 := by
  obtain ⟨hr, rfl⟩ := regRead_eq_ok.mp hv
  have hp : s.pc.toNat ≤ 6 := by have := nregs_eq; omega
  have htarget := jumpTarget_lt (jumpReg s hp)
  exact ⟨_, jumpIf_of_le hp taken, setPc_toNat (by split <;> omega) s⟩

end Sys2Proof.Machine

namespace Sys2Proof
open Machine

/-- Settles O10: the three cases of the comparison are exclusive, and none of them is GREATER_THAN. -/
theorem aluCompareGivesItsTable : Obligations.AluCompareGivesItsTable := by
  intro a b
  simp only [ne_eq, alu_compare_eq_ok]
  exact ⟨compareFlag_eq_equal a b, compareFlag_eq_lessThan a b, compareFlag_eq_none a b,
    compareFlag_ne_greaterThan a b⟩

/-- Settles O11: a step that has a next state began with a clear latch, and neither its fetch nor the instruction it
runs has this condition to raise. -/
theorem unsupportedAluOperationIsNeverRaised : Obligations.UnsupportedAluOperationIsNeverRaised := by
  refine ⟨fun _ _ => rfl, fun c s t h => ?_⟩
  obtain ⟨hrun, ⟨i, -, hexec⟩ | ⟨cond, herr, rfl⟩⟩ := stepWith_cases h
  · exact exec_fault_ne_unsupportedAluOperation (by rw [hrun]; nofun) hexec
  · rw [raise_fault, ne_eq, Option.some.injEq]
    exact fetch_error_ne_unsupportedAluOperation herr

/-- Settles O14: the opcode alone decodes to CMP, and where the `pc` that CMP leaves is outside memory, the next fetch
finds it. -/
theorem cmpComparesRegisters0And1 : Obligations.CmpComparesRegisters0And1 := by
  refine ⟨fun c pads hc => decodeFrom_cmp hc rfl, fun s hp => ?_⟩
  obtain ⟨t, ht, hfl, hpc, hx, hmem, hfault⟩ := exists_exec_cmp hp
  refine ⟨t, s.x[0], s.x[1], ht, rfl, rfl, ?equal, ?below, ?above, hpc, regRead_congr hx, memRead_congr hmem, hfault,
    ?nextFetch⟩
  case equal => rw [hfl]; exact (compareFlag_eq_equal _ _).mpr
  case below => rw [hfl]; exact (compareFlag_eq_lessThan _ _).mpr
  case above => rw [hfl]; exact (compareFlag_eq_none _ _).mpr
  case nextFetch =>
    intro hrun h97 c
    exact stepWith_of_pc_ge (hfault.trans hrun) hpc (by have := memSize_eq; omega)

/-- Settles O19: after CMP the jump stands at `pc + 3` and reads register `pc + 4`, and the flag value that takes it is
the comparison's for its relation of the two registers. -/
theorem cmpThenConditionalJumpFollowsItsTable : Obligations.CmpThenConditionalJumpFollowsItsTable := by
  intro s hp
  obtain ⟨t, ht, hfl, hpc, hx, -, -⟩ := exists_exec_cmp (s := s) (by have := memSize_eq; omega)
  have hr : s.pc.toNat + 4 < nregs := by have := nregs_eq; omega
  have hv : regRead (s.pc.toNat + 4) s = .ok s.x[s.pc.toNat + 4] := regRead_of_lt hr s
  have hv' : regRead (t.pc.toNat + 1) t = .ok s.x[s.pc.toNat + 4] := by rw [regRead_congr hx, hpc, hv]
  obtain ⟨ue, hue, huepc⟩ := exists_jumpIf hv' (t.fl == .equal)
  obtain ⟨un, hun, hunpc⟩ := exists_jumpIf hv' (t.fl == .none)
  refine ⟨s.x[0], s.x[1], _, t, ue, un, rfl, rfl, hv, ht, hue, hun, ?jeq, ?jne⟩
  case jeq => simpa only [hfl, hpc, beq_iff_eq, compareFlag_eq_equal] using huepc
  case jne => simpa only [hfl, hpc, beq_iff_eq, compareFlag_eq_none] using hunpc

end Sys2Proof
end

section
/-! The jumps (R68 to R72): both paths of a jump that has its operand, and which instruction can lower `pc`. -/

namespace Sys2Proof.Machine

variable {i : Instr} {s t : State}

/-- R69 to R71, R72(d): a jump at an address of at most 6 goes to its register's value plus 2 where it is taken and to
the next instruction where it is not, and writes nothing but `pc`. -/
theorem exists_jumpIf_decide_of_le (hp : s.pc.toNat ≤ 6) (taken : Prop) [Decidable taken] :
    ∃ (v : Word) (t : State), regRead (s.pc.toNat + 1) s = .ok v ∧ jumpIf (decide taken) s = .next t ∧
      (taken → t.pc.toNat = v.toNat + 2) ∧ (¬ taken → t.pc.toNat = s.pc.toNat + 2) ∧
      (∀ i, regRead i t = regRead i s) ∧ t.fl = s.fl ∧ (∀ a, memRead a t = memRead a s) ∧ t.fault = s.fault := by
  have hv : regRead (s.pc.toNat + 1) s = .ok (jumpReg s hp) := jumpOperand_of_le hp
  obtain ⟨t, ht, hpc⟩ := exists_jumpIf hv (decide taken)
  obtain rfl := Host.Outcome.next.inj ((jumpIf_of_le hp _).symm.trans ht)
  exact ⟨_, _, hv, ht, fun h => hpc.trans (if_pos (decide_eq_true h)),
    fun h => hpc.trans (if_neg (mt of_decide_eq_true h)), fun _ => rfl, rfl, fun _ => rfl, rfl⟩

/-- R72: LDI and CMP move `pc` up by 3 and a raise leaves it, so only a jump that completes lowers it, and then to 2 at
least, on either path. -/
theorem jump_of_exec_pc_lt (h : exec i s = .next t) (hp : s.pc.toNat < memSize) (hlt : t.pc.toNat < s.pc.toNat) :
    (i = .jmp ∨ i = .jeq ∨ i = .jne) ∧ s.pc.toNat ≤ 6 ∧ 2 ≤ t.pc.toNat := by
  have hm := memSize_eq
  rcases exec_cases h with ⟨r, v, hr, -, rfl⟩ | ⟨-, rfl⟩ | ⟨hj, h6, rfl⟩ | ⟨r, v, -, -, rfl⟩ | ⟨-, -, rfl⟩
  · rw [setPc_toNat (by omega)] at hlt
    omega
  · rw [setPc_toNat (by omega)] at hlt
    omega
  · have htarget := jumpTarget_lt (jumpReg s h6)
    refine ⟨hj, h6, ?_⟩
    rw [setPc_toNat (by split <;> omega)]
    split <;> exact Nat.le_add_left 2 _
  · exact absurd hlt (lt_irrefl _)
  · exact absurd hlt (lt_irrefl _)

theorem opcode_mem_of_jump (hj : i = .jmp ∨ i = .jeq ∨ i = .jne) (c : Params) :
    i.opcode c ∈ [c.opcJmp, c.opcJeq, c.opcJne] := by
  rcases hj with rfl | rfl | rfl <;> simp [Instr.opcode]

end Sys2Proof.Machine

namespace Sys2Proof
open Machine

/-- Settles O33: a raise leaves `pc`, and an instruction that lowers it is a jump, whose opcode the fetch read at `pc`. -/
theorem backwardTransferComesFromAJumpBelow7 : Obligations.BackwardTransferComesFromAJumpBelow7 := by
  intro c s t h hlt
  obtain ⟨-, ⟨i, hi, hexec⟩ | ⟨cond, -, rfl⟩⟩ := stepWith_cases h
  · obtain ⟨hj, h6, h2⟩ := jump_of_exec_pc_lt hexec (fetch_eq_ok hi).1 hlt
    exact ⟨h6, h2, i.opcode c, memRead_pc_of_fetch hi, opcode_mem_of_jump hj c⟩
  · exact absurd hlt (lt_irrefl _)

/-- Settles O15: JMP is the jump that is always taken, and where its target is outside memory, the next fetch finds
it. -/
theorem jmpGoesToItsRegisterPlus2 : Obligations.JmpGoesToItsRegisterPlus2 := by
  refine ⟨fun c pads hc => decodeFrom_jmp hc rfl, fun s => ⟨fun hp => ?completes, fun hp => jumpIf_of_ge hp true⟩⟩
  case completes =>
    obtain ⟨v, t, hv, ht, htaken, -, hx, hfl, hmem, hfault⟩ := exists_jumpIf_decide_of_le hp True
    have hpc := htaken trivial
    refine ⟨v, t, hv, ht, hpc, hx, hfl, hmem, hfault, fun hrun h98 c => ?_⟩
    exact stepWith_of_pc_ge (hfault.trans hrun) hpc (by have := memSize_eq; omega)

/-- Settles O16: JEQ is the jump that is taken on EQUAL. -/
theorem jeqJumpsWhenEqual : Obligations.JeqJumpsWhenEqual :=
  ⟨fun _ _ hc => decodeFrom_jeq hc rfl, fun s =>
    ⟨fun hp => exists_jumpIf_decide_of_le hp (s.fl = .equal), fun hp => jumpIf_of_ge hp (s.fl == .equal)⟩⟩

/-- Settles O17: JNE is the jump that is taken on NONE. -/
theorem jneJumpsWhenNone : Obligations.JneJumpsWhenNone :=
  ⟨fun _ _ hc => decodeFrom_jne hc rfl, fun s =>
    ⟨fun hp => exists_jumpIf_decide_of_le hp (s.fl = .none), fun hp => jumpIf_of_ge hp (s.fl == .none)⟩⟩

end Sys2Proof
end

section
/-! Raised conditions (R75 to R77, R85): a step that records a condition is a raise, and each condition's sites are
those of its fetch or of the instruction that was fetched. -/

namespace Sys2Proof.Machine

variable {c : Params} {i : Instr} {s t : State} {cond : Condition}

/-- R85: a latch that an instruction has set is the instruction's whole effect. -/
theorem eq_raise_of_exec_fault (hrun : s.fault = none) (h : exec i s = .next t) (ht : t.fault = some cond) :
    t = raise cond s := by
  rcases exec_fault_or_raise h with hf | ⟨r, -, -, rfl⟩
  · rw [hf, hrun] at ht
    cases ht
  · obtain rfl : Condition.outOfBounds .reg r = cond := Option.some.inj ht
    rfl

/-- R84, R85: a latch that a step has set is the step's whole effect. -/
theorem eq_raise_of_stepWith_fault (h : stepWith c s = .next t) (ht : t.fault = some cond) : t = raise cond s := by
  obtain ⟨hrun, ⟨i, -, hexec⟩ | ⟨cond', -, rfl⟩⟩ := stepWith_cases h
  · exact eq_raise_of_exec_fault hrun hexec ht
  · obtain rfl : cond' = cond := Option.some.inj ht
    rfl

/-- R77: the register conditions are all that an instruction raises, LDI at its operand and a jump at the number after
its address. -/
theorem exec_eq_raise_iff (hrun : s.fault = none) :
    exec i s = .next (raise cond s) ↔ ∃ r, cond = .outOfBounds .reg r ∧
      ((∃ v, i = .ldi r v ∧ nregs ≤ r) ∨
        ((i = .jmp ∨ i = .jeq ∨ i = .jne) ∧ 7 ≤ s.pc.toNat ∧ r = s.pc.toNat + 1)) := by
  constructor
  · intro h
    have completes {u : State} (hu : u.fault = s.fault) : raise cond s ≠ u := by
      rintro rfl
      rw [hrun] at hu
      cases hu
    rcases exec_cases h with ⟨r, v, hr, -, ht⟩ | ⟨-, ht⟩ | ⟨-, hp, ht⟩ | ⟨r, v, hi, hr, ht⟩ | ⟨hj, hp, ht⟩
    · exact absurd ht (completes rfl)
    · exact absurd ht (completes rfl)
    · exact absurd ht (completes rfl)
    · exact ⟨r, Option.some.inj (congrArg State.fault ht), .inl ⟨v, hi, hr⟩⟩
    · exact ⟨_, Option.some.inj (congrArg State.fault ht), .inr ⟨hj, hp, rfl⟩⟩
  · rintro ⟨r, rfl, ⟨v, rfl, hr⟩ | ⟨hj, hp, rfl⟩⟩
    · exact exec_ldi_of_ge hr v s
    · exact (exec_jump hj s).trans (jumpIf_of_ge hp _)

/-- The latch after a step: the condition of the fetch, or the one of the instruction that was fetched. -/
theorem stepWith_fault_eq_some_iff (h : stepWith c s = .next t) :
    t.fault = some cond ↔
      fetch c s = .error cond ∨ ∃ i, fetch c s = .ok i ∧ exec i s = .next (raise cond s) := by
  obtain ⟨hrun, ⟨i, hi, hexec⟩ | ⟨cond', herr, rfl⟩⟩ := stepWith_cases h
  · have hiff : t.fault = some cond ↔ exec i s = .next (raise cond s) := by
      rw [hexec, Host.Outcome.next.injEq]
      exact ⟨eq_raise_of_exec_fault hrun hexec, fun ht => ht ▸ rfl⟩
    simp [hi, hiff]
  · simp [herr]

/-- A condition that is no register condition is recorded by the fetch or not at all. -/
theorem stepWith_fault_eq_some_iff_fetch (hcond : ∀ r, cond ≠ .outOfBounds .reg r) (h : stepWith c s = .next t) :
    t.fault = some cond ↔ fetch c s = .error cond := by
  rw [stepWith_fault_eq_some_iff h, or_iff_left]
  rintro ⟨i, -, hexec⟩
  obtain ⟨r, hr, -⟩ := (exec_eq_raise_iff (stepWith_cases h).1).mp hexec
  exact hcond r hr

/-- R75: the fetch rejects exactly the bytes with no dispatch table entry. -/
theorem fetch_eq_unknownOpcode_iff {op : Byte} {a : Nat} :
    fetch c s = .error (.unknownOpcode op a) ↔
      a = s.pc.toNat ∧ memRead s.pc.toNat s = .ok op ∧ op ∉ c.opcodes := by
  constructor
  · intro h
    obtain ⟨-, he⟩ | ⟨-, -, -, he⟩ | ⟨hp, hop, he⟩ := fetch_eq_error h <;> cases he
    exact ⟨rfl, memRead_of_lt hp s, hop⟩
  · rintro ⟨rfl, hread, hop⟩
    exact decodeFrom_illegal hread hop

/-- R76: the fetch's checked reads fail at the opcode, or at an operand of an LDI in one of the last two cells. -/
theorem fetch_eq_outOfBounds_mem_iff {a : Nat} :
    fetch c s = .error (.outOfBounds .mem a) ↔
      (memSize ≤ s.pc.toNat ∧ a = s.pc.toNat) ∨
      (s.pc.toNat = 99 ∧ memRead 99 s = .ok c.opcLdi ∧ a = 100) ∨
      (s.pc.toNat = 98 ∧ memRead 98 s = .ok c.opcLdi ∧ a = 100) := by
  have hm := memSize_eq
  constructor
  · intro h
    obtain ⟨hp, he⟩ | ⟨hp, hp2, hop, he⟩ | ⟨-, -, he⟩ := fetch_eq_error h <;> cases he
    · exact .inl ⟨hp, rfl⟩
    · have hread : memRead s.pc.toNat s = .ok c.opcLdi := memRead_eq_ok.mpr ⟨hp, hop⟩
      obtain hpc | hpc : s.pc.toNat = 99 ∨ s.pc.toNat = 98 := by omega
      · exact .inr (.inl ⟨hpc, hpc ▸ hread, rfl⟩)
      · exact .inr (.inr ⟨hpc, hpc ▸ hread, rfl⟩)
  · rintro (⟨hp, rfl⟩ | ⟨hpc, hread, rfl⟩ | ⟨hpc, hread, rfl⟩)
    · exact fetch_of_ge hp
    · rw [← hpc] at hread
      obtain ⟨hp, hop⟩ := memRead_eq_ok.mp hread
      rw [fetch_ldi_of_operand1_ge hp hop (by omega), hpc]
    · rw [← hpc] at hread
      obtain ⟨hp, hop⟩ := memRead_eq_ok.mp hread
      rw [fetch_ldi_of_operand2_ge (by omega) hop (by omega), hpc]

/-- R61: an LDI of register `r` is fetched exactly where it stands in memory whole with `r` as its register byte. -/
theorem exists_fetch_ldi_iff {r : Nat} :
    (∃ v, fetch c s = .ok (.ldi r v)) ↔
      s.pc.toNat + 2 < memSize ∧ memRead s.pc.toNat s = .ok c.opcLdi ∧
        ∃ b, memRead (s.pc.toNat + 1) s = .ok b ∧ r = b.toNat := by
  constructor
  · rintro ⟨v, h⟩
    obtain ⟨hb, hv⟩ := memRead_operands_of_fetch_ldi h
    exact ⟨(memRead_eq_ok.mp hv).1, memRead_pc_of_fetch h, hb⟩
  · rintro ⟨hp, hop, b, hb, rfl⟩
    exact ⟨_, fetch_ldi_of_memRead hop hb (memRead_of_lt hp s)⟩

/-- R45, R47: a jump is fetched exactly where the byte at `pc` is one of the jumps' opcodes. -/
theorem exists_fetch_jump_iff (hc : c.Distinct) :
    (∃ i, fetch c s = .ok i ∧ (i = .jmp ∨ i = .jeq ∨ i = .jne)) ↔
      ∃ op, memRead s.pc.toNat s = .ok op ∧ op ∈ [c.opcJmp, c.opcJeq, c.opcJne] := by
  constructor
  · rintro ⟨i, h, hj⟩
    exact ⟨_, memRead_pc_of_fetch h, opcode_mem_of_jump hj c⟩
  · rintro ⟨op, hread, hop⟩
    simp only [List.mem_cons, List.not_mem_nil, or_false] at hop
    rcases hop with rfl | rfl | rfl
    · exact ⟨.jmp, decodeFrom_jmp hc hread, by simp⟩
    · exact ⟨.jeq, decodeFrom_jeq hc hread, by simp⟩
    · exact ⟨.jne, decodeFrom_jne hc hread, by simp⟩

/-- R76, R77: the fetch addresses no register. -/
theorem fetch_ne_outOfBounds_reg {r : Nat} : fetch c s ≠ .error (.outOfBounds .reg r) := by
  intro h
  rcases fetch_eq_error h with ⟨-, he⟩ | ⟨-, -, -, he⟩ | ⟨-, -, he⟩ <;> cases he

/-- R77: a register condition is recorded by a fetched LDI whose index is out of range, or by a fetched jump at an
address of 7 or more. -/
theorem stepWith_fault_eq_outOfBounds_reg_iff {r : Nat} (h : stepWith c s = .next t) :
    t.fault = some (.outOfBounds .reg r) ↔
      ((∃ v, fetch c s = .ok (.ldi r v)) ∧ nregs ≤ r) ∨
      (7 ≤ s.pc.toNat ∧ r = s.pc.toNat + 1 ∧
        ∃ i, fetch c s = .ok i ∧ (i = .jmp ∨ i = .jeq ∨ i = .jne)) := by
  have hrun := (stepWith_cases h).1
  rw [stepWith_fault_eq_some_iff h, or_iff_right fetch_ne_outOfBounds_reg]
  simp only [exec_eq_raise_iff hrun]
  constructor
  · rintro ⟨i, hi, r', he, ⟨v, rfl, hr⟩ | ⟨hj, hp, hr⟩⟩ <;> cases he
    · exact .inl ⟨⟨v, hi⟩, hr⟩
    · exact .inr ⟨hp, hr, i, hi, hj⟩
  · rintro (⟨⟨v, hi⟩, hr⟩ | ⟨hp, hr, i, hi, hj⟩)
    · exact ⟨_, hi, r, rfl, .inl ⟨v, rfl, hr⟩⟩
    · exact ⟨i, hi, r, rfl, .inr ⟨hj, hp, hr⟩⟩

end Sys2Proof.Machine

namespace Sys2Proof
open Machine

/-- Settles O24: no instruction raises this condition, and the fetch raises it for exactly the bytes that the dispatch
rejects. -/
theorem unknownOpcodeIsRaisedExactlyByIllegalBytes : Obligations.UnknownOpcodeIsRaisedExactlyByIllegalBytes := by
  intro c s hrun
  obtain ⟨t, ht⟩ := stepWith_total (c := c) hrun
  have hfault (op : Byte) (a : Nat) : t.fault = some (.unknownOpcode op a) ↔
      a = s.pc.toNat ∧ memRead s.pc.toNat s = .ok op ∧ op ∉ c.opcodes :=
    (stepWith_fault_eq_some_iff_fetch (by nofun) ht).trans fetch_eq_unknownOpcode_iff
  refine ⟨t, ht, hfault, fun op hread hop => ?status⟩
  case status =>
    rw [statusPort_of_some ((hfault op _).mpr ⟨rfl, hread, hop⟩)]
    simp [causeCode, infoSpace, infoIndex, infoOpcode]

/-- Settles O25: no instruction raises this condition, and the fetch raises it at the three addresses that its checked
reads can fail at. -/
theorem memoryOutOfBoundsIsRaisedExactlyAtItsSites : Obligations.MemoryOutOfBoundsIsRaisedExactlyAtItsSites := by
  intro c s hrun
  obtain ⟨t, ht⟩ := stepWith_total (c := c) hrun
  exact ⟨t, ht, fun a =>
    ⟨(stepWith_fault_eq_some_iff_fetch (by nofun) ht).trans fetch_eq_outOfBounds_mem_iff, statusPort_of_some⟩⟩

/-- Settles O26: the fetch never raises this condition; of the instructions that it finds, LDI and the jumps do. -/
theorem registerOutOfBoundsIsRaisedExactlyAtItsSites : Obligations.RegisterOutOfBoundsIsRaisedExactlyAtItsSites := by
  intro c s hc hrun
  obtain ⟨t, ht⟩ := stepWith_total (c := c) hrun
  refine ⟨t, ht, fun i => ⟨?sites, statusPort_of_some⟩⟩
  case sites =>
    rw [stepWith_fault_eq_outOfBounds_reg_iff ht, exists_fetch_ldi_iff, exists_fetch_jump_iff hc]
    refine or_congr_left ⟨?_, ?_⟩
    · rintro ⟨⟨hp, hop, r, hread, rfl⟩, hr⟩
      exact ⟨hp, hop, r, hread, hr, rfl⟩
    · rintro ⟨hp, hop, r, hread, hr, rfl⟩
      exact ⟨⟨hp, hop, r, hread, rfl⟩, hr⟩

/-- Settles O27: the next state is the one before with the condition recorded, and a halted core takes no step. -/
theorem raisesArePrecise : Obligations.RaisesArePrecise := by
  intro c s t cond h ht
  obtain rfl := eq_raise_of_stepWith_fault h ht
  exact ⟨rfl, rfl, rfl, rfl, fun u hu => by rw [stepWith_halted ht] at hu; cases hu⟩

end Sys2Proof
end

section
/-! Reset and boot (R24, R94, R96): what the reset state holds, what a placed image holds, and that the host's loads
place it. -/

namespace Sys2Proof.Machine

section reset
variable (f : Flag)

/-- R24: every memory cell is 0 after reset. -/
theorem memRead_resetWith {a : Nat} (ha : a < memSize) : memRead a (State.resetWith f) = .ok 0#8 :=
  memRead_of_lt ha _

/-- R24: every register is 0 after reset. -/
theorem regRead_resetWith {i : Nat} (hi : i < nregs) : regRead i (State.resetWith f) = .ok 0#8 := by
  simp [regRead_of_lt hi]

end reset

variable {c : Params} {s : State} {image : List Byte}

theorem launchWith_of_le (h : image.length ≤ memSize) (c : Params) :
    launchWith c image = .ok (placeImage image 0 (State.resetWith c.flReset)) :=
  if_pos h

/-- R34: a cell outside the image's range keeps its byte. -/
theorem memRead_placeImage_outside {a k : Nat} (hs : s.mem.wf) (hfit : a + image.length ≤ memSize)
    (hk : k < a ∨ a + image.length ≤ k) : memRead k (placeImage image a s) = memRead k s := by
  induction image generalizing a s with
  | nil => rfl
  | cons b rest ih =>
    rw [List.length_cons] at hfit hk
    have ha : a < memSize := by omega
    calc memRead k (placeImage rest (a + 1) (setMem a b s))
      _ = memRead k (setMem a b s) := ih (Memory.wf_write hs ha b) (by omega) (by omega)
      _ = memRead k s := by rw [memRead_setMem hs ha, if_neg (by omega)]

/-- R34: the image's byte `i` stands `i` cells after the first; no later byte of it is placed there. -/
theorem memRead_placeImage_getElem {a i : Nat} (hs : s.mem.wf) (hfit : a + image.length ≤ memSize)
    (hi : i < image.length) : memRead (a + i) (placeImage image a s) = .ok image[i] := by
  induction image generalizing a i s with
  | nil => cases hi
  | cons b rest ih =>
    rw [List.length_cons] at hfit hi
    have ha : a < memSize := by omega
    have hwf : (setMem a b s).mem.wf := Memory.wf_write hs ha b
    cases i with
    | zero =>
      calc memRead a (placeImage rest (a + 1) (setMem a b s))
        _ = memRead a (setMem a b s) := memRead_placeImage_outside hwf (by omega) (by omega)
        _ = .ok b := by rw [memRead_setMem hs ha, if_pos rfl]
    | succ i =>
      have hrest := ih hwf (a := a + 1) (i := i) (by omega) (by omega)
      rwa [Nat.add_right_comm] at hrest

theorem afterAll_cons {σ ρ : System} {e : Event} (h : σ.after c e = some ρ) (rest : List Event) :
    System.afterAll c (e :: rest) σ = System.afterAll c rest ρ := by
  simp [System.afterAll, h]

theorem after_reset (σ : System) :
    σ.after c .reset = some { phase := .loading, core := State.resetWith c.flReset } := rfl

/-- R34, R96: before `run`, one load a byte of an image that fits places the image. -/
theorem afterAll_loadEvents_append {a : Nat} (hfit : a + image.length ≤ memSize) (rest : List Event) :
    System.afterAll c (loadEvents image a ++ rest) { phase := .loading, core := s } =
      System.afterAll c rest { phase := .loading, core := placeImage image a s } := by
  induction image generalizing a s with
  | nil => rfl
  | cons b bytes ih =>
    rw [List.length_cons] at hfit
    exact (afterAll_cons (after_load_loading c s (by omega) b) _).trans (ih (by omega))

/-- R96: the boot sequence of an image that fits ends in a running core that holds the image over the reset state. -/
theorem afterAll_boot (h : image.length ≤ memSize) (σ : System) :
    System.afterAll c (.reset :: (loadEvents image 0 ++ [.run])) σ =
      some { phase := .running, core := placeImage image 0 (State.resetWith c.flReset) } := by
  rw [afterAll_cons (after_reset σ), afterAll_loadEvents_append (by omega), afterAll_cons (after_run_loading c _)]
  rfl

/-- R75, R84: a running core whose byte at `pc` is no opcode raises that byte with its address. -/
theorem stepWith_of_illegal_opcode {op : Byte} (hrun : s.fault = none) (hread : memRead s.pc.toNat s = .ok op)
    (hop : op ∉ c.opcodes) : stepWith c s = .next (raise (.unknownOpcode op s.pc.toNat) s) :=
  stepWith_of_fetch_error hrun (fetch_eq_unknownOpcode_iff.mpr ⟨rfl, hread, hop⟩)

end Sys2Proof.Machine

namespace Sys2Proof
open Machine

/-- Settles O2: the loads place the image over the reset state, which it covers from 0 on and changes nowhere else. -/
theorem bootSequenceReachesTheLaunchState : Obligations.BootSequenceReachesTheLaunchState := by
  refine ⟨rfl, by decide, fun c image σ hlen => ?boot⟩
  case boot =>
    have hwf := resetWith_wf c.flReset
    have hfit : 0 + image.length ≤ memSize := by omega
    obtain ⟨hx, hpc, hfl, hfault⟩ := placeImage_fields image 0 (State.resetWith c.flReset)
    refine ⟨_, launchWith_of_le hlen c, afterAll_boot hlen σ, fun i hi => ?image, fun i hi hm => ?zeros,
      fun i hi => ?registers, hpc, hfl, hfault, ?empty⟩
    case image => simpa using memRead_placeImage_getElem hwf hfit hi
    case zeros => rw [memRead_placeImage_outside hwf hfit (by omega), memRead_resetWith _ hm]
    case registers => rw [regRead_congr hx, regRead_resetWith _ hi]
    case empty =>
      rintro rfl hop
      exact stepWith_of_illegal_opcode rfl (memRead_resetWith (a := 0) _ (by decide)) hop

/-- Settles O1: the event discards the state before it, and the reset value of `FL` on this hardware is EQUAL. -/
theorem resetEventRestoresEveryStateElement : Obligations.ResetEventRestoresEveryStateElement :=
  fun σ => ⟨State.reset, after_reset σ, fun _ => memRead_resetWith _, fun _ => regRead_resetWith _, rfl, rfl, rfl,
    statusPort_of_none rfl, rfl⟩

end Sys2Proof
end
